-- ==== Sys2Proof/Word.lean ====
section
/-! DEFINITION. The word types of the CORE (00_scope.md R11, R12): every value is unsigned. -/

namespace Sys2Proof

/-- An 8-bit value: a register, a timer, a byte of memory (10_state.md R21, R28, R29). -/
abbrev Byte := BitVec 8

/-- A 16-bit value: `I`, `IP`, a stack entry, an opcode (10_state.md R24, R25, R27; 30_encoding.md R70). -/
abbrev Word := BitVec 16

/-- The 12-bit address field `NNN` of an opcode (30_encoding.md R71). -/
abbrev Addr12 := BitVec 12

/-- A register index 0..15, the fields `X` and `Y` (10_state.md R21; 30_encoding.md R73). -/
abbrev RegIdx := Fin 16

end Sys2Proof
end

