-- ==== Sys2Proof/Config.lean ====
section
/-! DEFINITION. The implementation parameters of 00_scope.md R9, their defaults, and the two draws of R10. -/

namespace Sys2Proof

/-- `VF_ORDER`: which write lands last in VF when VF is also the destination (41_alu.md R143). -/
inductive VfOrder where
  | flagLast
  | resultLast
  deriving DecidableEq, Repr

/-- `SUBN_FLAG`: the flag convention of 8XY7 (41_alu.md R140). -/
inductive SubnFlag where
  | noBorrow
  | strict
  deriving DecidableEq, Repr

/-- `FONT_DIGIT`: which part of V[X] selects the glyph in FX29 (42_index_memory.md R162). -/
inductive FontDigit where
  | lowNibble
  | full
  deriving DecidableEq, Repr

/-- `DRAW_EDGE`: sprite pixels past the right or bottom edge (43_display.md R192). -/
inductive DrawEdge where
  | wrap
  | clip
  deriving DecidableEq, Repr

/-- The configuration record, with exactly the fields of 00_scope.md R9. -/
structure Config where
  /-- `STACK_DEPTH`, a natural number ≥ 1. -/
  stackDepth   : Nat
  /-- `STRICT_DECODE`. -/
  strictDecode : Bool
  /-- `VF_ORDER`. -/
  vfOrder      : VfOrder
  /-- `SUBN_FLAG`. -/
  subnFlag     : SubnFlag
  /-- `FONT_DIGIT`. -/
  fontDigit    : FontDigit
  /-- `LS_INCREMENT_I`. -/
  lsIncrementI : Bool
  /-- `DRAW_EDGE`. -/
  drawEdge     : DrawEdge
  /-- `FONT`, the 80 bytes the host passes to load_font. -/
  font         : Vector Byte 80
  deriving DecidableEq, Repr

/-- The default glyph table of 20_memory.md R65 (UNVERIFIED there: general knowledge, log entry 12). -/
def Config.defaultFont : Vector Byte 80 :=
  #v[0xF0, 0x90, 0x90, 0x90, 0xF0,   0x20, 0x60, 0x20, 0x20, 0x70,
     0xF0, 0x10, 0xF0, 0x80, 0xF0,   0xF0, 0x10, 0xF0, 0x10, 0xF0,
     0x90, 0x90, 0xF0, 0x10, 0x10,   0xF0, 0x80, 0xF0, 0x10, 0xF0,
     0xF0, 0x80, 0xF0, 0x90, 0xF0,   0xF0, 0x10, 0x20, 0x40, 0x40,
     0xF0, 0x90, 0xF0, 0x90, 0xF0,   0xF0, 0x90, 0xF0, 0x10, 0xF0,
     0xF0, 0x90, 0xF0, 0x90, 0x90,   0xE0, 0x90, 0xE0, 0x90, 0xE0,
     0xF0, 0x80, 0x80, 0x80, 0xF0,   0xE0, 0x90, 0x90, 0x90, 0xE0,
     0xF0, 0x80, 0xF0, 0x80, 0xF0,   0xF0, 0x80, 0xF0, 0x80, 0x80]

/-- The defaults of 00_scope.md R9. -/
def Config.default : Config where
  stackDepth   := 16
  strictDecode := false
  vfOrder      := .flagLast
  subnFlag     := .noBorrow
  fontDigit    := .lowNibble
  lsIncrementI := false
  drawEdge     := .wrap
  font         := Config.defaultFont

/-- `STACK_DEPTH` is a natural number ≥ 1 (00_scope.md R9). -/
abbrev Config.wf (c : Config) : Prop := 1 ≤ c.stackDepth

/-- FREE VALUE: the random byte of CXNN at the n-th draw (00_scope.md R10; 41_alu.md R142).
No body: nothing in Lean knows a value of it (log entry 3). -/
opaque Config.drawByte : Nat → Byte

/-- FREE VALUE: the choice of the key wait at the n-th draw, read as a position among the pressed keys
(00_scope.md R10; 44_input_timers.md R213, R214; log entries 3 and 4). -/
opaque Config.drawKey : Nat → Nat

end Sys2Proof
end

