-- ==== Sys2Proof/Syntax.lean ====
section
/-! DEFINITION. The 34 instructions, one constructor for each row of spec/opcode_table.json
(30_encoding.md R74, R83). -/

namespace Sys2Proof

/-- An instruction with its operands, as 30_encoding.md R83 decodes it.
`X`, `Y` are register indices, `NN` a byte, `NNN` a 12-bit address, `N` a row count. -/
inductive Instr where
  /-- `CLS`, 00E0 -/
  | cls
  /-- `RET`, 00EE -/
  | ret
  /-- `JP NNN`, 1NNN -/
  | jp (nnn : Addr12)
  /-- `CALL NNN`, 2NNN -/
  | call (nnn : Addr12)
  /-- `SE Vx, NN`, 3XNN -/
  | seImm (x : RegIdx) (nn : Byte)
  /-- `SNE Vx, NN`, 4XNN -/
  | sneImm (x : RegIdx) (nn : Byte)
  /-- `SE Vx, Vy`, 5XY0 -/
  | seReg (x y : RegIdx)
  /-- `LD Vx, NN`, 6XNN -/
  | ldImm (x : RegIdx) (nn : Byte)
  /-- `ADD Vx, NN`, 7XNN -/
  | addImm (x : RegIdx) (nn : Byte)
  /-- `LD Vx, Vy`, 8XY0 -/
  | ldReg (x y : RegIdx)
  /-- `OR Vx, Vy`, 8XY1 -/
  | orReg (x y : RegIdx)
  /-- `AND Vx, Vy`, 8XY2 -/
  | andReg (x y : RegIdx)
  /-- `XOR Vx, Vy`, 8XY3 -/
  | xorReg (x y : RegIdx)
  /-- `ADD Vx, Vy`, 8XY4 -/
  | addReg (x y : RegIdx)
  /-- `SUB Vx, Vy`, 8XY5 -/
  | subReg (x y : RegIdx)
  /-- `SHR Vx`, 8XY6; `Y` is decoded and has no effect -/
  | shr (x y : RegIdx)
  /-- `SUBN Vx, Vy`, 8XY7 -/
  | subnReg (x y : RegIdx)
  /-- `SHL Vx`, 8XYE; `Y` is decoded and has no effect -/
  | shl (x y : RegIdx)
  /-- `SNE Vx, Vy`, 9XY0 -/
  | sneReg (x y : RegIdx)
  /-- `LD I, NNN`, ANNN -/
  | ldI (nnn : Addr12)
  /-- `JP V0, NNN`, BNNN -/
  | jpV0 (nnn : Addr12)
  /-- `RND Vx, NN`, CXNN -/
  | rnd (x : RegIdx) (nn : Byte)
  /-- `DRW Vx, Vy, N`, DXYN -/
  | drw (x y : RegIdx) (n : Nat)
  /-- `SKP Vx`, EX9E -/
  | skp (x : RegIdx)
  /-- `SKNP Vx`, EXA1 -/
  | sknp (x : RegIdx)
  /-- `LD Vx, DT`, FX07 -/
  | ldVxDt (x : RegIdx)
  /-- `LD Vx, K`, FX0A -/
  | ldVxK (x : RegIdx)
  /-- `LD DT, Vx`, FX15 -/
  | ldDtVx (x : RegIdx)
  /-- `LD ST, Vx`, FX18 -/
  | ldStVx (x : RegIdx)
  /-- `ADD I, Vx`, FX1E -/
  | addI (x : RegIdx)
  /-- `LD F, Vx`, FX29 -/
  | ldF (x : RegIdx)
  /-- `LD B, Vx`, FX33 -/
  | ldB (x : RegIdx)
  /-- `LD [I], Vx`, FX55 -/
  | stRegs (x : RegIdx)
  /-- `LD Vx, [I]`, FX65 -/
  | ldRegs (x : RegIdx)
  deriving DecidableEq, Repr

end Sys2Proof
end

