-- ==== Sys2Proof/Decode.lean ====
section
/-! DEFINITION. The decoder of 30_encoding.md R83, total on all words and all byte sequences, then the encoder
(R72, R74, R87), and the opcode table's match and mask of every instruction. -/

namespace Sys2Proof

/-- Why a byte sequence is no instruction (30_encoding.md R75 to R81). -/
inductive Reject where
  /-- fewer than the 2 bytes every instruction has (R70) -/
  | tooShort
  /-- family 0x0: neither CLS nor RET (R75) -/
  | family0
  /-- family 0x5 under STRICT_DECODE with bits 3:0 not 0 (R76) -/
  | family5
  /-- family 0x8 with a sub-selector outside 0..7, E (R77) -/
  | family8
  /-- family 0x9 under STRICT_DECODE with bits 3:0 not 0 (R76) -/
  | family9
  /-- family 0xE with a sub-selector other than 9E, A1 (R78) -/
  | familyE
  /-- family 0xF with a sub-selector outside R79's list -/
  | familyF
  /-- no family: never answered, since bits 15:12 hold 16 values (R71) -/
  | noFamily
  deriving DecidableEq, Repr

/-! ## Fields (30_encoding.md R71) -/

/-- `F`, bits 15:12. -/
def fieldF (op : Word) : Nat := (op.extractLsb' 12 4).toNat

/-- `X`, bits 11:8. -/
def fieldX (op : Word) : RegIdx := ⟨(op.extractLsb' 8 4).toNat, (op.extractLsb' 8 4).isLt⟩

/-- `Y`, bits 7:4. -/
def fieldY (op : Word) : RegIdx := ⟨(op.extractLsb' 4 4).toNat, (op.extractLsb' 4 4).isLt⟩

/-- `N`, bits 3:0. -/
def fieldN (op : Word) : Nat := (op.extractLsb' 0 4).toNat

/-- `NN`, bits 7:0. -/
def fieldNN (op : Word) : Byte := op.extractLsb' 0 8

/-- `NNN`, bits 11:0. -/
def fieldNNN (op : Word) : Addr12 := op.extractLsb' 0 12

/-! ## The decoder -/

/-- Family 0x0 (R75). -/
def decode0 (strict : Bool) (op : Word) : Except Reject Instr :=
  if strict then
    if op = 0x00E0 then .ok .cls else if op = 0x00EE then .ok .ret else .error .family0
  else
    if fieldN op = 0x0 then .ok .cls else if fieldN op = 0xE then .ok .ret else .error .family0

/-- Family 0x8, selected by `N` (R77). -/
def decode8 (op : Word) : Except Reject Instr :=
  match fieldN op with
  | 0x0 => .ok (.ldReg (fieldX op) (fieldY op))
  | 0x1 => .ok (.orReg (fieldX op) (fieldY op))
  | 0x2 => .ok (.andReg (fieldX op) (fieldY op))
  | 0x3 => .ok (.xorReg (fieldX op) (fieldY op))
  | 0x4 => .ok (.addReg (fieldX op) (fieldY op))
  | 0x5 => .ok (.subReg (fieldX op) (fieldY op))
  | 0x6 => .ok (.shr (fieldX op) (fieldY op))
  | 0x7 => .ok (.subnReg (fieldX op) (fieldY op))
  | 0xE => .ok (.shl (fieldX op) (fieldY op))
  | _ => .error .family8

/-- Family 0xE, selected by `NN` (R78). -/
def decodeE (op : Word) : Except Reject Instr :=
  if fieldNN op = 0x9E then .ok (.skp (fieldX op))
  else if fieldNN op = 0xA1 then .ok (.sknp (fieldX op))
  else .error .familyE

/-- Family 0xF, selected by `NN` (R79). -/
def decodeF (op : Word) : Except Reject Instr :=
  if fieldNN op = 0x07 then .ok (.ldVxDt (fieldX op))
  else if fieldNN op = 0x0A then .ok (.ldVxK (fieldX op))
  else if fieldNN op = 0x15 then .ok (.ldDtVx (fieldX op))
  else if fieldNN op = 0x18 then .ok (.ldStVx (fieldX op))
  else if fieldNN op = 0x1E then .ok (.addI (fieldX op))
  else if fieldNN op = 0x29 then .ok (.ldF (fieldX op))
  else if fieldNN op = 0x33 then .ok (.ldB (fieldX op))
  else if fieldNN op = 0x55 then .ok (.stRegs (fieldX op))
  else if fieldNN op = 0x65 then .ok (.ldRegs (fieldX op))
  else .error .familyF

/-- `Decode(op)` of 30_encoding.md R83; `strict` is STRICT_DECODE. -/
def decodeWord (strict : Bool) (op : Word) : Except Reject Instr :=
  match fieldF op with
  | 0x0 => decode0 strict op
  | 0x1 => .ok (.jp (fieldNNN op))
  | 0x2 => .ok (.call (fieldNNN op))
  | 0x3 => .ok (.seImm (fieldX op) (fieldNN op))
  | 0x4 => .ok (.sneImm (fieldX op) (fieldNN op))
  | 0x5 => if strict && fieldN op != 0 then .error .family5 else .ok (.seReg (fieldX op) (fieldY op))
  | 0x6 => .ok (.ldImm (fieldX op) (fieldNN op))
  | 0x7 => .ok (.addImm (fieldX op) (fieldNN op))
  | 0x8 => decode8 op
  | 0x9 => if strict && fieldN op != 0 then .error .family9 else .ok (.sneReg (fieldX op) (fieldY op))
  | 0xA => .ok (.ldI (fieldNNN op))
  | 0xB => .ok (.jpV0 (fieldNNN op))
  | 0xC => .ok (.rnd (fieldX op) (fieldNN op))
  | 0xD => .ok (.drw (fieldX op) (fieldY op) (fieldN op))
  | 0xE => decodeE op
  | 0xF => decodeF op
  | _ => .error .noFamily

/-! ## Byte order (20_memory.md R55, R56): the byte at the lower address is bits 15:8 -/

/-- The opcode whose byte at the lower address is `hi`: `hi * 256 + lo`. -/
def wordOfBytes (hi lo : Byte) : Word := BitVec.ofNat 16 (hi.toNat * 256 + lo.toNat)

/-- Bits 15:8, the byte at the lower address. -/
def hiByte (op : Word) : Byte := op.extractLsb' 8 8

/-- Bits 7:0, the byte at the higher address. -/
def loByte (op : Word) : Byte := op.extractLsb' 0 8

/-- Decode the instruction at the head of a byte sequence: always 2 bytes (R70), and the bytes after it. -/
def decodeBytes (strict : Bool) : List Byte → Except Reject (Instr × List Byte)
  | hi :: lo :: rest =>
    match decodeWord strict (wordOfBytes hi lo) with
    | .ok i => .ok (i, rest)
    | .error r => .error r
  | [] => .error .tooShort
  | [_] => .error .tooShort

/-! ## The encoder -/

/-- Format `A`: family, 12-bit address (R72). -/
def packA (f : Nat) (nnn : Addr12) : Word := BitVec.ofNat 16 (f * 4096 + nnn.toNat)

/-- Formats `XK` and `XS`: family, `X`, low byte (R72). -/
def packXK (f : Nat) (x : RegIdx) (kk : Byte) : Word := BitVec.ofNat 16 (f * 4096 + x.val * 256 + kk.toNat)

/-- Format `XYN`: family, `X`, `Y`, low nibble (R72). -/
def packXYN (f : Nat) (x y : RegIdx) (n : Nat) : Word := BitVec.ofNat 16 (f * 4096 + x.val * 256 + y.val * 16 + n)

/-- The word of a well-formed instruction with every operand in its field (R72, R74), the Y of SHR and SHL too, to
which the opcode table gives bits 7:4; ignored bits are those of the canonical form (R74). -/
def fieldWord : Instr → Word
  | .cls => 0x00E0
  | .ret => 0x00EE
  | .jp nnn => packA 0x1 nnn
  | .call nnn => packA 0x2 nnn
  | .seImm x nn => packXK 0x3 x nn
  | .sneImm x nn => packXK 0x4 x nn
  | .seReg x y => packXYN 0x5 x y 0x0
  | .ldImm x nn => packXK 0x6 x nn
  | .addImm x nn => packXK 0x7 x nn
  | .ldReg x y => packXYN 0x8 x y 0x0
  | .orReg x y => packXYN 0x8 x y 0x1
  | .andReg x y => packXYN 0x8 x y 0x2
  | .xorReg x y => packXYN 0x8 x y 0x3
  | .addReg x y => packXYN 0x8 x y 0x4
  | .subReg x y => packXYN 0x8 x y 0x5
  | .shr x y => packXYN 0x8 x y 0x6
  | .subnReg x y => packXYN 0x8 x y 0x7
  | .shl x y => packXYN 0x8 x y 0xE
  | .sneReg x y => packXYN 0x9 x y 0x0
  | .ldI nnn => packA 0xA nnn
  | .jpV0 nnn => packA 0xB nnn
  | .rnd x nn => packXK 0xC x nn
  | .drw x y n => packXYN 0xD x y n
  | .skp x => packXK 0xE x 0x9E
  | .sknp x => packXK 0xE x 0xA1
  | .ldVxDt x => packXK 0xF x 0x07
  | .ldVxK x => packXK 0xF x 0x0A
  | .ldDtVx x => packXK 0xF x 0x15
  | .ldStVx x => packXK 0xF x 0x18
  | .addI x => packXK 0xF x 0x1E
  | .ldF x => packXK 0xF x 0x29
  | .ldB x => packXK 0xF x 0x33
  | .stRegs x => packXK 0xF x 0x55
  | .ldRegs x => packXK 0xF x 0x65

/-- The instruction as it is written in R87: SHR and SHL have one register operand, and 0 stands in Y. -/
def Instr.canonical : Instr → Instr
  | .shr x _ => .shr x 0
  | .shl x _ => .shl x 0
  | i => i

/-- The word of a well-formed instruction, 0 in the Y of SHR and SHL (R74, R87). -/
def encode (i : Instr) : Word := fieldWord i.canonical

/-- The two bytes of an instruction, the lower address first. -/
def encodeBytes (i : Instr) : List Byte := [hiByte (encode i), loByte (encode i)]

/-! ## The opcode table -/

/-- The row's "mask" and "match" in spec/opcode_table.json (the default decode): a word is the row's
instruction when its bits under the mask are the match. -/
def tableRow : Instr → Word × Word
  | .cls => (0xF00F, 0x0000)
  | .ret => (0xF00F, 0x000E)
  | .jp _ => (0xF000, 0x1000)
  | .call _ => (0xF000, 0x2000)
  | .seImm _ _ => (0xF000, 0x3000)
  | .sneImm _ _ => (0xF000, 0x4000)
  | .seReg _ _ => (0xF000, 0x5000)
  | .ldImm _ _ => (0xF000, 0x6000)
  | .addImm _ _ => (0xF000, 0x7000)
  | .ldReg _ _ => (0xF00F, 0x8000)
  | .orReg _ _ => (0xF00F, 0x8001)
  | .andReg _ _ => (0xF00F, 0x8002)
  | .xorReg _ _ => (0xF00F, 0x8003)
  | .addReg _ _ => (0xF00F, 0x8004)
  | .subReg _ _ => (0xF00F, 0x8005)
  | .shr _ _ => (0xF00F, 0x8006)
  | .subnReg _ _ => (0xF00F, 0x8007)
  | .shl _ _ => (0xF00F, 0x800E)
  | .sneReg _ _ => (0xF000, 0x9000)
  | .ldI _ => (0xF000, 0xA000)
  | .jpV0 _ => (0xF000, 0xB000)
  | .rnd _ _ => (0xF000, 0xC000)
  | .drw _ _ _ => (0xF000, 0xD000)
  | .skp _ => (0xF0FF, 0xE09E)
  | .sknp _ => (0xF0FF, 0xE0A1)
  | .ldVxDt _ => (0xF0FF, 0xF007)
  | .ldVxK _ => (0xF0FF, 0xF00A)
  | .ldDtVx _ => (0xF0FF, 0xF015)
  | .ldStVx _ => (0xF0FF, 0xF018)
  | .addI _ => (0xF0FF, 0xF01E)
  | .ldF _ => (0xF0FF, 0xF029)
  | .ldB _ => (0xF0FF, 0xF033)
  | .stRegs _ => (0xF0FF, 0xF055)
  | .ldRegs _ => (0xF0FF, 0xF065)

/-! ## The host's view of the opcode table -/

/-- The one word of an instruction whose `nbits` table bits are `w`, every bit above them 0. -/
def tableWord (nbits w : Nat) : Word := BitVec.ofNat 16 (w % 2 ^ nbits)

/-- The instruction this decoder reads from a table word, under the default STRICT_DECODE: the word is laid out
big-endian (20_memory.md R56) and decoded. -/
def decodeTableWord (nbits w : Nat) : Option Instr :=
  let op := tableWord nbits w
  match decodeBytes Config.default.strictDecode [hiByte op, loByte op] with
  | .ok (i, _) => some i
  | .error _ => none

end Sys2Proof
end

