-- ==== Sys2Proof/Machine/State.lean ====
section
/-! DEFINITION. The state of the CORE (10_state.md R20), its errors (60_exceptions.md R240), the reasons a step can
stop, and the state after reset (10_state.md R37). -/

namespace Sys2Proof.Machine

/-- The kind an AddressError records (60_exceptions.md R240). -/
inductive AccessKind where
  | fetch
  | read
  | write
  deriving DecidableEq, Repr

/-- The errors of 60_exceptions.md R240, each with what it records. -/
inductive Error where
  /-- code 1: the byte count offered to load_program -/
  | loadError (count : Nat)
  /-- code 2: IP, the opcode, and the signed offset IP − 0x200 (R241) -/
  | decodeError (ip op : Word) (offset : Int)
  /-- code 3: IP of the CALL -/
  | stackOverflow (ip : Word)
  /-- code 4: IP of the RET -/
  | stackUnderflow (ip : Word)
  /-- code 5: IP, the failing address and the kind of access -/
  | addressError (ip : Word) (addr : Nat) (kind : AccessKind)
  /-- code 6: IP and the failing address -/
  | protectedWriteError (ip : Word) (addr : Nat)
  deriving DecidableEq, Repr

/-- `M` as the bytes that differ from 0x00, addresses strictly rising (log entry 9). -/
abbrev Memory := List Host.Cell

/-- `FB`, row `y` then column `x`; true is lit (10_state.md R30). -/
abbrev Framebuffer := Vector (Vector Bool 64) 32

/-- The state record of 10_state.md R20, and the model's own two fields `cfg` and `draws`. -/
structure State where
  /-- MODEL'S OWN: the configuration of 00_scope.md R9, changed by nothing (log entry 2). -/
  cfg      : Config
  /-- `M`, 4096 bytes (R20, 20_memory.md R50). -/
  mem      : Memory
  /-- `V[0..15]` (R21). -/
  v        : Vector Byte 16
  /-- `I` (R24). -/
  i        : Word
  /-- `IP` (R25). -/
  ip       : Word
  /-- `S[0..STACK_DEPTH-1]` (R27). -/
  stack    : List Word
  /-- `SP`, the number of stack entries in use (R27). -/
  sp       : Nat
  /-- `DT` (R28). -/
  dt       : Byte
  /-- `ST` (R29). -/
  st       : Byte
  /-- `FB` (R30). -/
  fb       : Framebuffer
  /-- `K[0..15]`, true is pressed (R31). -/
  keys     : Vector Bool 16
  /-- `AW` (R32). -/
  awaiting : Option RegIdx
  /-- `HALT` (R33). -/
  halt     : Option Error
  /-- MODEL'S OWN: how many draws of 00_scope.md R10 were made so far (log entry 3). -/
  draws    : Nat
  deriving DecidableEq, Repr

/-- Why a step answers no next state. -/
inductive Fault where
  /-- Raised by `step` on a state whose `HALT` holds this error: no cycle runs while HALT is not none
  (30_encoding.md R90; 60_exceptions.md R243). Safe: the machine does not go on. -/
  | halted (e : Error)
  deriving DecidableEq, Repr

/-- Why the model gives an instruction no meaning. -/
inductive Refusal where
  /-- Raised by `exec` alone, for an instruction that has no meaning yet. Safe: the model does not go on. -/
  | notModelled (mnemonic : String)
  deriving DecidableEq, Repr

/-- Every piece of state at its reset value (10_state.md R37; 70_reset_and_hazards.md R280), under a configuration.
`draws` starts at 0 (DESIGN CHOICE, log entry 3; no statement rests on it). -/
def State.resetWith (c : Config) : State where
  cfg      := c
  mem      := []
  v        := Vector.replicate 16 0
  i        := 0
  ip       := 0x0200
  stack    := List.replicate c.stackDepth 0
  sp       := 0
  dt       := 0
  st       := 0
  fb       := Vector.replicate 32 (Vector.replicate 64 false)
  keys     := Vector.replicate 16 false
  awaiting := none
  halt     := none
  draws    := 0

/-- The machine right after reset, under the default configuration (log entry 2). -/
def State.reset : State := State.resetWith Config.default

end Sys2Proof.Machine
end

