-- ==== Sys2Proof/Machine/Ops.lean ====
section
/-! DEFINITION. The named operations over registers, the instruction pointer, memory and the error record that every
meaning is written with. -/

namespace Sys2Proof.Machine

/-- What a meaning answers. -/
abbrev StepResult := Host.Outcome State Fault Refusal

/-! ## Registers and the instruction pointer -/

/-- `VF`, register 15 (10_state.md R22). -/
def VF : RegIdx := 15

/-- `V[r]` (10_state.md R21). -/
def State.reg (s : State) (r : RegIdx) : Byte := s.v.get r

/-- `V[r] <- b`. -/
def State.setReg (s : State) (r : RegIdx) (b : Byte) : State := { s with v := s.v.set r.val b r.isLt }

/-- `I <- a`. -/
def State.setI (s : State) (a : Word) : State := { s with i := a }

/-- `IP <- target` (30_encoding.md R84). -/
def State.setIp (s : State) (target : Word) : State := { s with ip := target }

/-- `IP <- IP + 2` (30_encoding.md R84). -/
def State.advance (s : State) : State := s.setIp (s.ip + 2)

/-- `IP <- IP + 4` when the condition holds, `IP <- IP + 2` otherwise (40_control.md R108). -/
def State.skipIf (s : State) (cond : Bool) : State := s.setIp (if cond then s.ip + 4 else s.ip + 2)

/-- `DT <- b`. -/
def State.setDt (s : State) (b : Byte) : State := { s with dt := b }

/-- `ST <- b`. -/
def State.setSt (s : State) (b : Byte) : State := { s with st := b }

/-- `FB` replaced whole. -/
def State.setFb (s : State) (f : Framebuffer) : State := { s with fb := f }

/-- `K[k] <- pressed`. -/
def State.setKey (s : State) (k : RegIdx) (pressed : Bool) : State :=
  { s with keys := s.keys.set k.val pressed k.isLt }

/-- `AW <- a`. -/
def State.setAwaiting (s : State) (a : Option RegIdx) : State := { s with awaiting := a }

/-- `M` replaced whole. -/
def State.setMem (s : State) (m : Memory) : State := { s with mem := m }

/-- `HALT <- h`. -/
def State.setHalt (s : State) (h : Option Error) : State := { s with halt := h }

/-- One draw was made: the next one reads the next free value (log entry 3). -/
def State.nextDraw (s : State) : State := { s with draws := s.draws + 1 }

/-! ## The call stack (10_state.md R27) -/

/-- `S[k]`. An index past the list, which no run reaches, answers 0 (log entry 8). -/
def State.stackEntry (s : State) (k : Nat) : Word := s.stack.getD k 0

/-- `S[SP] <- w; SP <- SP + 1`. -/
def State.push (s : State) (w : Word) : State := { s with stack := s.stack.set s.sp w, sp := s.sp + 1 }

/-- `SP <- SP - 1`; the popped entry keeps its value (40_control.md R100). -/
def State.pop (s : State) : State := { s with sp := s.sp - 1 }

/-! ## Errors

Taking an error is `raise`. There is no handler, no vector and no saved pc (60_exceptions.md R246), so what is taken is
the HALT record alone. There is no return beside it: 60_exceptions.md R247 gives none, and only the host's reset()
clears HALT (R243). -/

/-- `raise e`: the instruction writes no state, then `HALT <- some e` (60_exceptions.md R242). -/
def raise (e : Error) (s : State) : StepResult := .next (s.setHalt (some e))

/-- The record of a DecodeError: IP, the opcode and the signed offset from 0x200 (60_exceptions.md R240, R241). -/
def decodeErrorAt (ip op : Word) : Error := .decodeError ip op ((ip.toNat : Int) - 0x200)

/-- The code numbers of 60_exceptions.md R240. -/
def Error.code : Error → Nat
  | .loadError _ => 1
  | .decodeError _ _ _ => 2
  | .stackOverflow _ => 3
  | .stackUnderflow _ => 4
  | .addressError _ _ _ => 5
  | .protectedWriteError _ _ => 6

/-- The run-time errors, codes 2 to 6: the `ExecutionError`s (60_exceptions.md R240). -/
def Error.isExecutionError (e : Error) : Bool := decide (2 ≤ e.code)

/-! ## Memory (20_memory.md R50 to R54) -/

/-- The number of bytes of `M`: addresses 0x000 to 0xFFF (R50). -/
def memSize : Nat := 4096

/-- The first address past the font region 0x000..0x04F (R52). -/
def fontEnd : Nat := 0x50

/-- The first address of the program region 0x200..0xFFF (R52). -/
def programBase : Nat := 0x200

/-- What an address that the list does not hold reads as: 0x00, the value of every byte of `M` after reset()
(10_state.md R37). -/
def Memory.unlisted : Byte := 0

/-- The canonical form: addresses strictly rising and below 4096, no entry equal to what an unlisted address
reads as. -/
abbrev Memory.wf (m : Memory) : Prop :=
  m.Pairwise (fun c d => c.1 < d.1) ∧ ∀ c ∈ m, c.2 ≠ Memory.unlisted ∧ c.1 < memSize

/-- `M[a]`. -/
def Memory.read : Memory → Nat → Byte
  | [], _ => Memory.unlisted
  | (k, b) :: rest, a => if a < k then Memory.unlisted else if a = k then b else Memory.read rest a

/-- `M[a] <- b`. The canonical form is kept: writing what an unlisted address reads as removes the entry. -/
def Memory.write : Memory → Nat → Byte → Memory
  | [], a, b => if b = Memory.unlisted then [] else [(a, b)]
  | (k, c) :: rest, a, b =>
    if a < k then (if b = Memory.unlisted then (k, c) :: rest else (a, b) :: (k, c) :: rest)
    else if a = k then (if b = Memory.unlisted then rest else (a, b) :: rest)
    else (k, c) :: Memory.write rest a b

/-- The bytes `bs` written at `a`, `a + 1`, … in ascending order (20_memory.md R58). -/
def Memory.storeBytes : Memory → Nat → List Byte → Memory
  | m, _, [] => m
  | m, a, b :: bs => Memory.storeBytes (m.write a b) (a + 1) bs

/-- `CheckRead(a)` (20_memory.md R59), with the IP the error records. -/
def checkRead (ip : Word) (a : Nat) : Option Error :=
  if memSize ≤ a then some (.addressError ip a .read) else none

/-- `CheckWrite(a)` (20_memory.md R59), with the IP the error records. -/
def checkWrite (ip : Word) (a : Nat) : Option Error :=
  if memSize ≤ a then some (.addressError ip a .write)
  else if a < fontEnd then some (.protectedWriteError ip a)
  else none

/-- The addresses `base`, `base + 1`, …, `n` of them, ascending; they never wrap (20_memory.md R51, R58). -/
def accessRange (base n : Nat) : List Nat := (List.range n).map (base + ·)

/-- Every check of an instruction in ascending address order: the first failure, if any (20_memory.md R59;
60_exceptions.md R244). -/
def firstFailure (check : Nat → Option Error) (addrs : List Nat) : Option Error := addrs.findSome? check

/-- The one shape of an instruction that accesses memory: every check first, then all its effects or none
(20_memory.md R59; 60_exceptions.md R242). -/
def afterChecks (failure : Option Error) (s t : State) : StepResult :=
  match failure with
  | some e => raise e s
  | none => .next t

/-! ## Fetch and decode (20_memory.md R55; 30_encoding.md R90) -/

/-- `FetchOpcode(IP)`: both bytes are checked before either is used; the error records the first address of the
pair that is out of range. -/
def fetchOpcode (s : State) : Except Error Word :=
  let a := s.ip.toNat
  if memSize ≤ a + 1 then .error (.addressError s.ip (if a < memSize then a + 1 else a) .fetch)
  else .ok (wordOfBytes (s.mem.read a) (s.mem.read (a + 1)))

/-- Fetch and decode at IP: the instruction, or the first of the fetch's AddressError and the DecodeError
(60_exceptions.md R244). -/
def fetchInstr (s : State) : Except Error Instr :=
  match fetchOpcode s with
  | .error e => .error e
  | .ok op =>
    match decodeWord s.cfg.strictDecode op with
    | .ok i => .ok i
    | .error _ => .error (decodeErrorAt s.ip op)

/-- The state with the word `op` stored big-endian at IP, ready to be fetched: a machine that is halted or waiting
fetches nothing, and an IP past 0x0FFE cannot be fetched from, so those are set to their reset values (log entry 7). -/
def placeOpcode (s : State) (op : Word) : State :=
  let ip := if s.ip.toNat + 1 < memSize then s.ip else 0x0200
  { s with
    halt := none
    awaiting := none
    ip := ip
    mem := (s.mem.write ip.toNat (hiByte op)).write (ip.toNat + 1) (loByte op) }

end Sys2Proof.Machine
end

