-- ==== Sys2Proof/Machine/Operands.lean ====
section
/-! DEFINITION. Every operand form: immediates, jump targets, key numbers, glyph addresses, decimal digits, the block
V0..VX, sprite rows and pixel coordinates. -/

namespace Sys2Proof.Machine

/-- `zext_16(NNN)` (30_encoding.md R73). -/
def zext16 (nnn : Addr12) : Word := nnn.setWidth 16

/-- `zext_16(NNN) + V[0]`, a 16-bit result that is not reduced to 12 bits (40_control.md R107). -/
def offsetTarget (nnn : Addr12) (v0 : Byte) : Word := BitVec.ofNat 16 (nnn.toNat + v0.toNat)

/-- `(I + V[X]) mod 65536` (42_index_memory.md R161). -/
def indexSum (i : Word) (b : Byte) : Word := BitVec.ofNat 16 (i.toNat + b.toNat)

/-- The key an instruction tests: the low nibble of V[X] (44_input_timers.md R210). -/
def keyOf (b : Byte) : RegIdx := ⟨b.toNat % 16, Nat.mod_lt _ (by decide)⟩

/-- A key's logical index as a register value 0..15 (44_input_timers.md R213). -/
def keyByte (k : RegIdx) : Byte := BitVec.ofNat 8 k.val

/-- The digit FX29 points at (42_index_memory.md R162). -/
def fontDigitOf (mode : FontDigit) (b : Byte) : Nat :=
  match mode with
  | .lowNibble => b.toNat % 16
  | .full => b.toNat

/-- `5 * digit`, the glyph base being 0x000 (42_index_memory.md R162). -/
def glyphAddr (mode : FontDigit) (b : Byte) : Word := BitVec.ofNat 16 (5 * fontDigitOf mode b)

/-- Hundreds, tens and ones, hundreds first (42_index_memory.md R163). -/
def bcdDigits (b : Byte) : List Byte :=
  [BitVec.ofNat 8 (b.toNat / 100), BitVec.ofNat 8 (b.toNat / 10 % 10), BitVec.ofNat 8 (b.toNat % 10)]

/-- The registers V0..VX in ascending order (42_index_memory.md R164, R165). -/
def regsUpTo (x : RegIdx) : List RegIdx := (List.finRange 16).filter (fun r => decide (r ≤ x))

/-- The addresses of the block I .. I + X (42_index_memory.md R164, R165). -/
def blockAddrs (s : State) (x : RegIdx) : List Nat := accessRange s.i.toNat (x.val + 1)

/-- The addresses of FX33's digits, I .. I + 2 (42_index_memory.md R163). -/
def bcdAddrs (s : State) : List Nat := accessRange s.i.toNat 3

/-- The addresses of a sprite's rows, I .. I + N − 1 (43_display.md R193). -/
def spriteAddrs (s : State) (n : Nat) : List Nat := accessRange s.i.toNat n

/-- `I <- (I + X + 1) mod 65536` when LS_INCREMENT_I, I unchanged otherwise (42_index_memory.md R164, R165). -/
def indexAfterBlock (s : State) (x : RegIdx) : Word :=
  if s.cfg.lsIncrementI then BitVec.ofNat 16 (s.i.toNat + x.val + 1) else s.i

/-- `V[k] <- M[I + k]` for each listed `k`, in order (42_index_memory.md R165). -/
def loadRegs (m : Memory) (base : Nat) : List RegIdx → State → State
  | [], s => s
  | k :: ks, s => loadRegs m base ks (s.setReg k (m.read (base + k.val)))

/-! ## Pixels (43_display.md R192, R193) -/

/-- `FB[px][py]`, column then row (10_state.md R30). -/
def Framebuffer.pixel (f : Framebuffer) (px : Fin 64) (py : Fin 32) : Bool := (f.get py).get px

/-- `FB[px][py] <- FB[px][py] ^ 1`. -/
def Framebuffer.toggle (f : Framebuffer) (px : Fin 64) (py : Fin 32) : Framebuffer :=
  f.set py.val ((f.get py).set px.val (!(f.get py).get px) px.isLt) py.isLt

/-- The positions (row `r`, column `c`) of a sprite's set bits, row by row from the top, bit 7 leftmost
(43_display.md R193). -/
def spriteBits (rows : List Byte) : List (Nat × Nat) :=
  rows.zipIdx.flatMap fun (b, r) => ((List.range 8).filter fun c => b.getLsbD (7 - c)).map fun c => (r, c)

/-- Where the sprite bit in row `r`, column `c` lands for a sprite at (x0, y0); none when DRAW_EDGE is `clip` and
the pixel is past an edge (43_display.md R192). -/
def pixelAt (edge : DrawEdge) (x0 y0 : Byte) (p : Nat × Nat) : Option (Fin 64 × Fin 32) :=
  match edge with
  | .wrap => some (⟨(x0.toNat + p.2) % 64, Nat.mod_lt _ (by decide)⟩, ⟨(y0.toNat + p.1) % 32, Nat.mod_lt _ (by decide)⟩)
  | .clip =>
    if h : x0.toNat % 64 + p.2 < 64 ∧ y0.toNat % 32 + p.1 < 32 then
      some (⟨x0.toNat % 64 + p.2, h.1⟩, ⟨y0.toNat % 32 + p.1, h.2⟩)
    else none

/-- The pixels a sprite toggles, in drawing order. -/
def spritePixels (edge : DrawEdge) (x0 y0 : Byte) (rows : List Byte) : List (Fin 64 × Fin 32) :=
  (spriteBits rows).filterMap (pixelAt edge x0 y0)

/-- Toggle each listed pixel in order; the collision is true once a pixel was lit before its toggle
(43_display.md R192). -/
def togglePixels : List (Fin 64 × Fin 32) → Framebuffer × Bool → Framebuffer × Bool
  | [], d => d
  | p :: ps, d => togglePixels ps (d.1.toggle p.1 p.2, d.2 || d.1.pixel p.1 p.2)

/-! ## Keys -/

/-- `P = { k in 0..15 | K[k] }`, ascending (44_input_timers.md R213). -/
def pressedKeys (s : State) : List RegIdx := (List.finRange 16).filter (fun k => s.keys.get k)

/-- The `n`-th of the keys `k :: rest`, the last one when `n` is past the end: every member is the answer for
some `n`, and every answer is a member (log entry 4). -/
def pickKey : RegIdx → List RegIdx → Nat → RegIdx
  | k, [], _ => k
  | k, _ :: _, 0 => k
  | _, k' :: rest, n + 1 => pickKey k' rest n

/-- `draw_key(P)`: none when no key is pressed, else any pressed key (44_input_timers.md R213). -/
def drawnKey (s : State) : Option RegIdx :=
  match pressedKeys s with
  | [] => none
  | k :: rest => some (pickKey k rest (Config.drawKey s.draws))

end Sys2Proof.Machine
end

