-- ==== Sys2Proof/Machine/Flags.lean ====
section
/-! DEFINITION. Every result that comes with a flag, every flag computation, and the order of the two writes
(41_alu.md R137 to R141, R143). VF is the only flag (10_state.md R34). -/

namespace Sys2Proof.Machine

/-- 1 when the condition holds, else 0. -/
def flagOf (cond : Bool) : Byte := if cond then 1 else 0

/-- `(a + b) mod 256` (41_alu.md R132, R137). -/
def addResult (a b : Byte) : Byte := BitVec.ofNat 8 (a.toNat + b.toNat)

/-- 1 iff the exact sum exceeds 255 (41_alu.md R137). -/
def carryFlag (a b : Byte) : Byte := flagOf (decide (255 < a.toNat + b.toNat))

/-- `(a + 256 - b) mod 256` (41_alu.md R138, R140). -/
def subResult (a b : Byte) : Byte := BitVec.ofNat 8 (a.toNat + 256 - b.toNat)

/-- 1 iff a ≥ b: no borrow (41_alu.md R138). -/
def noBorrowFlag (a b : Byte) : Byte := flagOf (decide (b.toNat ≤ a.toNat))

/-- The flag of 8XY7 for V[Y] − V[X], by SUBN_FLAG (41_alu.md R140). -/
def subnFlagOf (convention : SubnFlag) (vy vx : Byte) : Byte :=
  match convention with
  | .noBorrow => flagOf (decide (vx.toNat ≤ vy.toNat))
  | .strict => flagOf (decide (vx.toNat < vy.toNat))

/-- `old >> 1` (41_alu.md R139). -/
def shrResult (old : Byte) : Byte := BitVec.ofNat 8 (old.toNat / 2)

/-- Bit 0 of the value before the shift (41_alu.md R139). -/
def shrFlag (old : Byte) : Byte := flagOf (old.getLsbD 0)

/-- `(old << 1) mod 256` (41_alu.md R141). -/
def shlResult (old : Byte) : Byte := BitVec.ofNat 8 (old.toNat * 2)

/-- Bit 7 of the value before the shift (41_alu.md R141). -/
def shlFlag (old : Byte) : Byte := flagOf (old.getLsbD 7)

/-- `WriteWithFlag(X, result, flag)`: the two writes in the order VF_ORDER fixes (41_alu.md R143). -/
def writeWithFlag (x : RegIdx) (result flag : Byte) (s : State) : State :=
  match s.cfg.vfOrder with
  | .flagLast => (s.setReg x result).setReg VF flag
  | .resultLast => (s.setReg VF flag).setReg x result

end Sys2Proof.Machine
end

