-- ==== Sys2Proof/Machine/Alu.lean ====
section
/-! DEFINITION. Register loads, arithmetic and logic (41_alu.md). Every operand is read before any register is
written (R130); each ends with IP <- IP + 2 (30_encoding.md R84). -/

namespace Sys2Proof.Machine

/-- `LD Vx, NN` (41_alu.md R131). -/
def execLdImm (x : RegIdx) (nn : Byte) (s : State) : StepResult := .next (s.setReg x nn).advance

/-- `ADD Vx, NN`, no flag (41_alu.md R132). -/
def execAddImm (x : RegIdx) (nn : Byte) (s : State) : StepResult :=
  .next (s.setReg x (addResult (s.reg x) nn)).advance

/-- `LD Vx, Vy` (41_alu.md R133). -/
def execLdReg (x y : RegIdx) (s : State) : StepResult := .next (s.setReg x (s.reg y)).advance

/-- `OR Vx, Vy`, no flag (41_alu.md R134). -/
def execOrReg (x y : RegIdx) (s : State) : StepResult := .next (s.setReg x (s.reg x ||| s.reg y)).advance

/-- `AND Vx, Vy`, no flag (41_alu.md R135). -/
def execAndReg (x y : RegIdx) (s : State) : StepResult := .next (s.setReg x (s.reg x &&& s.reg y)).advance

/-- `XOR Vx, Vy`, no flag (41_alu.md R136). -/
def execXorReg (x y : RegIdx) (s : State) : StepResult := .next (s.setReg x (s.reg x ^^^ s.reg y)).advance

/-- `ADD Vx, Vy` (41_alu.md R137). -/
def execAddReg (x y : RegIdx) (s : State) : StepResult :=
  .next (writeWithFlag x (addResult (s.reg x) (s.reg y)) (carryFlag (s.reg x) (s.reg y)) s).advance

/-- `SUB Vx, Vy` (41_alu.md R138). -/
def execSubReg (x y : RegIdx) (s : State) : StepResult :=
  .next (writeWithFlag x (subResult (s.reg x) (s.reg y)) (noBorrowFlag (s.reg x) (s.reg y)) s).advance

/-- `SHR Vx`; `Y` is not read (41_alu.md R139). -/
def execShr (x _y : RegIdx) (s : State) : StepResult :=
  .next (writeWithFlag x (shrResult (s.reg x)) (shrFlag (s.reg x)) s).advance

/-- `SUBN Vx, Vy` (41_alu.md R140). -/
def execSubnReg (x y : RegIdx) (s : State) : StepResult :=
  .next (writeWithFlag x (subResult (s.reg y) (s.reg x)) (subnFlagOf s.cfg.subnFlag (s.reg y) (s.reg x)) s).advance

/-- `SHL Vx`; `Y` is not read (41_alu.md R141). -/
def execShl (x _y : RegIdx) (s : State) : StepResult :=
  .next (writeWithFlag x (shlResult (s.reg x)) (shlFlag (s.reg x)) s).advance

/-- `RND Vx, NN` with the drawn byte `r` given (41_alu.md R142). -/
def rndWith (r : Byte) (x : RegIdx) (nn : Byte) (s : State) : State := (s.setReg x (r &&& nn)).advance.nextDraw

/-- `RND Vx, NN`: the drawn byte is a free value (41_alu.md R142; log entry 3). -/
def execRnd (x : RegIdx) (nn : Byte) (s : State) : StepResult :=
  .next (rndWith (Config.drawByte s.draws) x nn s)

end Sys2Proof.Machine
end

