-- ==== Sys2Proof/Machine/Control.lean ====
section
/-! DEFINITION. Control transfer and skips (40_control.md). -/

namespace Sys2Proof.Machine

/-- `RET` (40_control.md R100). -/
def execRet (s : State) : StepResult :=
  if s.sp = 0 then raise (.stackUnderflow s.ip) s
  else .next (s.pop.setIp (s.stackEntry (s.sp - 1) + 2))

/-- `JP NNN` (40_control.md R101). -/
def execJp (nnn : Addr12) (s : State) : StepResult := .next (s.setIp (zext16 nnn))

/-- `CALL NNN` (40_control.md R102): the pushed value is the address of this CALL. -/
def execCall (nnn : Addr12) (s : State) : StepResult :=
  if s.sp = s.cfg.stackDepth then raise (.stackOverflow s.ip) s
  else .next ((s.push s.ip).setIp (zext16 nnn))

/-- `SE Vx, NN` (40_control.md R103). -/
def execSeImm (x : RegIdx) (nn : Byte) (s : State) : StepResult := .next (s.skipIf (s.reg x == nn))

/-- `SNE Vx, NN` (40_control.md R104). -/
def execSneImm (x : RegIdx) (nn : Byte) (s : State) : StepResult := .next (s.skipIf (s.reg x != nn))

/-- `SE Vx, Vy` (40_control.md R105). -/
def execSeReg (x y : RegIdx) (s : State) : StepResult := .next (s.skipIf (s.reg x == s.reg y))

/-- `SNE Vx, Vy` (40_control.md R106). -/
def execSneReg (x y : RegIdx) (s : State) : StepResult := .next (s.skipIf (s.reg x != s.reg y))

/-- `JP V0, NNN` (40_control.md R107). -/
def execJpV0 (nnn : Addr12) (s : State) : StepResult := .next (s.setIp (offsetTarget nnn (s.reg 0)))

end Sys2Proof.Machine
end

