-- ==== Sys2Proof/Machine/Display.lean ====
section
/-! DEFINITION. The framebuffer and drawing (43_display.md). -/

namespace Sys2Proof.Machine

/-- Every pixel unlit (43_display.md R191). -/
def Framebuffer.clear : Framebuffer := Vector.replicate 32 (Vector.replicate 64 false)

/-- `CLS` (43_display.md R191). -/
def execCls (s : State) : StepResult := .next (s.setFb Framebuffer.clear).advance

/-- The sprite's rows, `M[I + r]` for r < N (43_display.md R193). -/
def spriteRows (s : State) (n : Nat) : List Byte := (spriteAddrs s n).map s.mem.read

/-- The framebuffer and the collision after drawing at (V[X], V[Y]) (43_display.md R192). -/
def drawn (x y : RegIdx) (n : Nat) (s : State) : Framebuffer × Bool :=
  togglePixels (spritePixels s.cfg.drawEdge (s.reg x) (s.reg y) (spriteRows s n)) (s.fb, false)

/-- `DRW Vx, Vy, N` (43_display.md R192). -/
def execDrw (x y : RegIdx) (n : Nat) (s : State) : StepResult :=
  afterChecks (firstFailure (checkRead s.ip) (spriteAddrs s n)) s
    ((s.setFb (drawn x y n s).1).setReg VF (flagOf (drawn x y n s).2)).advance

end Sys2Proof.Machine
end

