-- ==== Sys2Proof/Machine/IndexMemory.lean ====
section
/-! DEFINITION. Index register and memory transfer (42_index_memory.md). -/

namespace Sys2Proof.Machine

/-- `LD I, NNN` (42_index_memory.md R160). -/
def execLdI (nnn : Addr12) (s : State) : StepResult := .next (s.setI (zext16 nnn)).advance

/-- `ADD I, Vx`, no flag (42_index_memory.md R161). -/
def execAddI (x : RegIdx) (s : State) : StepResult := .next (s.setI (indexSum s.i (s.reg x))).advance

/-- `LD F, Vx` (42_index_memory.md R162). -/
def execLdF (x : RegIdx) (s : State) : StepResult := .next (s.setI (glyphAddr s.cfg.fontDigit (s.reg x))).advance

/-- `LD B, Vx` (42_index_memory.md R163). -/
def execLdB (x : RegIdx) (s : State) : StepResult :=
  afterChecks (firstFailure (checkWrite s.ip) (bcdAddrs s)) s
    (s.setMem (s.mem.storeBytes s.i.toNat (bcdDigits (s.reg x)))).advance

/-- `LD [I], Vx` (42_index_memory.md R164). -/
def execStRegs (x : RegIdx) (s : State) : StepResult :=
  afterChecks (firstFailure (checkWrite s.ip) (blockAddrs s x)) s
    ((s.setMem (s.mem.storeBytes s.i.toNat ((regsUpTo x).map s.reg))).setI (indexAfterBlock s x)).advance

/-- `LD Vx, [I]` (42_index_memory.md R165). -/
def execLdRegs (x : RegIdx) (s : State) : StepResult :=
  afterChecks (firstFailure (checkRead s.ip) (blockAddrs s x)) s
    ((loadRegs s.mem s.i.toNat (regsUpTo x) s).setI (indexAfterBlock s x)).advance

end Sys2Proof.Machine
end

