-- ==== Sys2Proof/Machine/InputTimers.lean ====
section
/-! DEFINITION. Key input, the key wait and timer transfers (44_input_timers.md). -/

namespace Sys2Proof.Machine

/-- `SKP Vx` (44_input_timers.md R211). -/
def execSkp (x : RegIdx) (s : State) : StepResult := .next (s.skipIf (s.keys.get (keyOf (s.reg x))))

/-- `SKNP Vx` (44_input_timers.md R212). -/
def execSknp (x : RegIdx) (s : State) : StepResult := .next (s.skipIf (!s.keys.get (keyOf (s.reg x))))

/-- The key wait completes with key `k`: `V[x] <- k; IP <- IP + 2`, one draw made (44_input_timers.md R213, R214). -/
def storeKey (x k : RegIdx) (s : State) : State := (s.setReg x (keyByte k)).advance.nextDraw

/-- `LD Vx, K` (44_input_timers.md R213). -/
def execLdVxK (x : RegIdx) (s : State) : StepResult :=
  match drawnKey s with
  | some k => .next (storeKey x k s)
  | none => .next (s.setAwaiting (some x))

/-- `WaitCycle(r)` (44_input_timers.md R214). -/
def waitCycle (r : RegIdx) (s : State) : StepResult :=
  match drawnKey s with
  | some k => .next ((storeKey r k s).setAwaiting none)
  | none => .next s

/-- `LD Vx, DT` (44_input_timers.md R215). -/
def execLdVxDt (x : RegIdx) (s : State) : StepResult := .next (s.setReg x s.dt).advance

/-- `LD DT, Vx` (44_input_timers.md R216). -/
def execLdDtVx (x : RegIdx) (s : State) : StepResult := .next (s.setDt (s.reg x)).advance

/-- `LD ST, Vx` (44_input_timers.md R217). -/
def execLdStVx (x : RegIdx) (s : State) : StepResult := .next (s.setSt (s.reg x)).advance

end Sys2Proof.Machine
end

