-- ==== Sys2Proof/Machine/Step.lean ====
section
/-! DEFINITION. One cycle of the interpreter (30_encoding.md R90). -/

namespace Sys2Proof.Machine

/-- `Cycle()` (30_encoding.md R90): a wait cycle while AW holds a register, else fetch, decode and execute.
A cycle is "executed only while HALT = none", so a halted machine answers a fault that names its error
(60_exceptions.md R243; log entry 1). -/
def step (s : State) : Host.Outcome State Fault Refusal :=
  match s.halt with
  | some e => .fault (.halted e)
  | none =>
    match s.awaiting with
    | some r => waitCycle r s
    | none =>
      match fetchInstr s with
      | .error e => raise e s
      | .ok i => exec i s

/-- The state whose very next step fetches and runs the instruction whose `nbits` table bits are `w`
(log entry 7). -/
def State.withFetchWord (s : State) (nbits w : Nat) : State := placeOpcode s (tableWord nbits w)

end Sys2Proof.Machine
end

