-- ==== Sys2Proof/Machine/HostInterface.lean ====
section
/-! DEFINITION. The block's interface (60_exceptions.md R260): the host's seven operations, the batch scheduler
(R250), the timer tick (R251) and the boot order (70_reset_and_hazards.md R283). -/

namespace Sys2Proof.Machine

/-- What run_batch and load_program return (60_exceptions.md R260). -/
inductive HostResult where
  | ok
  | err (e : Error)
  deriving DecidableEq, Repr

/-- `reset()` (70_reset_and_hazards.md R280): every piece of state to its reset value. The configuration is no
state, and the draws go on from where they were (log entry 13). -/
def hostReset (s : State) : State := { State.resetWith s.cfg with draws := s.draws }

/-- `load_font(glyph_table)`, exactly 80 bytes; nothing while HALT is not none (70_reset_and_hazards.md R281). -/
def loadFont (table : Vector Byte 80) (s : State) : State :=
  match s.halt with
  | some _ => s
  | none => s.setMem (s.mem.storeBytes 0 table.toList)

/-- `load_program(bytes)` (70_reset_and_hazards.md R282): 3584 bytes are the program region. -/
def loadProgram (bytes : List Byte) (s : State) : HostResult × State :=
  match s.halt with
  | some e => (.err e, s)
  | none =>
    if memSize - programBase < bytes.length then
      (.err (.loadError bytes.length), s.setHalt (some (.loadError bytes.length)))
    else (.ok, s.setMem (s.mem.storeBytes programBase bytes))

/-- One timer's tick: decremented while greater than zero (60_exceptions.md R251). -/
def tickTimer (t : Byte) : Byte := if 0 < t.toNat then BitVec.ofNat 8 (t.toNat - 1) else t

/-- `Tick()` (60_exceptions.md R251). -/
def tick (s : State) : State := (s.setDt (tickTimer s.dt)).setSt (tickTimer s.st)

/-- The state a cycle leaves: the next state, an error's HALT record among its effects; a machine that does not go
on stays as it is. -/
def afterCycle (s : State) : State :=
  match step s with
  | .next t => t
  | .fault _ => s
  | .refused _ => s

/-- At most `n` cycles, ending at the first that raised an error (60_exceptions.md R250). -/
def runCycles : Nat → State → State
  | 0, s => s
  | n + 1, s =>
    match (afterCycle s).halt with
    | some _ => afterCycle s
    | none => runCycles n (afterCycle s)

/-- `run_batch(n)`, `n` a u32 (60_exceptions.md R250): n cycles and one tick, or the error and no tick. -/
def runBatch (n : BitVec 32) (s : State) : HostResult × State :=
  match s.halt with
  | some e => (.err e, s)
  | none =>
    match (runCycles n.toNat s).halt with
    | some e => (.err e, runCycles n.toNat s)
    | none => (.ok, tick (runCycles n.toNat s))

/-- `framebuffer_snapshot()` (43_display.md R194). -/
def framebufferSnapshot (s : State) : Framebuffer := s.fb

/-- `set_input_state(key_index, pressed)`; nothing while HALT is not none (60_exceptions.md R261, R243). -/
def setInputState (k : RegIdx) (pressed : Bool) (s : State) : State :=
  match s.halt with
  | some _ => s
  | none => s.setKey k pressed

/-- `sound_active()` (60_exceptions.md R252). -/
def soundActive (s : State) : Bool := decide (0 < s.st.toNat)

/-- One call of the host (60_exceptions.md R260). -/
inductive HostCall where
  | reset
  | loadFont (table : Vector Byte 80)
  | loadProgram (bytes : List Byte)
  | runBatch (n : BitVec 32)
  | framebufferSnapshot
  | setInputState (k : RegIdx) (pressed : Bool)
  | soundActive
  deriving DecidableEq, Repr

/-- What a call of the host leaves the machine in. -/
def hostCall (c : HostCall) (s : State) : State :=
  match c with
  | .reset => hostReset s
  | .loadFont table => Sys2Proof.Machine.loadFont table s
  | .loadProgram bytes => (Sys2Proof.Machine.loadProgram bytes s).2
  | .runBatch n => (Sys2Proof.Machine.runBatch n s).2
  | .framebufferSnapshot => s
  | .setInputState k pressed => Sys2Proof.Machine.setInputState k pressed s
  | .soundActive => s

/-- A run: the host's calls in order (60_exceptions.md R258). -/
def hostRun : List HostCall → State → State
  | [], s => s
  | c :: cs, s => hostRun cs (hostCall c s)

/-- The boot order: reset(), load_font(FONT), load_program(rom) (70_reset_and_hazards.md R283). -/
def boot (c : Config) (rom : List Byte) : HostResult × State :=
  Sys2Proof.Machine.loadProgram rom (Sys2Proof.Machine.loadFont c.font (State.resetWith c))

end Sys2Proof.Machine
end

