-- ==== Sys2Proof/Safety.lean ====
section
/-! DEFINITION. The terms claims are stated in: a safe state, the frame of an instruction, the invariant of every
reachable state, the errors of an access, and the pixels a sprite covers. -/

namespace Sys2Proof.Machine

/-- A session that has not failed (60_exceptions.md R258: a run has failed once HALT is some error). -/
def State.safe (s : State) : Prop := s.halt = none

/-! ## Frames -/

/-- The pieces of state an instruction may write, IP apart; what is not named here it leaves alone. -/
structure Writes where
  regs     : List RegIdx := []
  index    : Bool := false
  stack    : Bool := false
  dt       : Bool := false
  st       : Bool := false
  fb       : Bool := false
  awaiting : Bool := false
  draws    : Bool := false
  mem      : List Nat := []
  deriving DecidableEq, Repr

/-- `t` differs from `s` in IP and in the pieces `w` names, and in nothing else: every other register, every byte
of memory at another address, the keys, HALT and the configuration are as before. -/
structure Frame (w : Writes) (s t : State) : Prop where
  regs     : ∀ r, r ∉ w.regs → t.reg r = s.reg r
  mem      : ∀ a, a ∉ w.mem → t.mem.read a = s.mem.read a
  index    : w.index = false → t.i = s.i
  stack    : w.stack = false → t.stack = s.stack ∧ t.sp = s.sp
  dt       : w.dt = false → t.dt = s.dt
  st       : w.st = false → t.st = s.st
  fb       : w.fb = false → t.fb = s.fb
  awaiting : w.awaiting = false → t.awaiting = s.awaiting
  draws    : w.draws = false → t.draws = s.draws
  keys     : t.keys = s.keys
  halt     : t.halt = s.halt
  cfg      : t.cfg = s.cfg

/-- The result and the flag of an instruction that has both: V[X] and VF when X is another register, and by
VF_ORDER when X is VF (41_alu.md R143). -/
def FlaggedWrite (x : RegIdx) (result flag : Nat) (s t : State) : Prop :=
  (x ≠ VF → (t.reg x).toNat = result ∧ (t.reg VF).toNat = flag) ∧
  (x = VF → (t.reg VF).toNat =
    match s.cfg.vfOrder with
    | .flagLast => flag
    | .resultLast => result)

/-- The word `w` is read as `i` under both values of STRICT_DECODE. -/
def DecodesTo (w : Word) (i : Instr) : Prop := ∀ strict, decodeWord strict w = .ok i

/-! ## The invariant of every state a run reaches -/

/-- What holds after reset() and is kept by every step and every call of the host. -/
structure State.Inv (s : State) : Prop where
  /-- STACK_DEPTH ≥ 1 (00_scope.md R9). -/
  cfg      : s.cfg.wf
  /-- The memory list is canonical and holds no address past 0xFFF (20_memory.md R50). -/
  mem      : s.mem.wf
  /-- The stack has STACK_DEPTH entries (10_state.md R27). -/
  depth    : s.stack.length = s.cfg.stackDepth
  /-- 0 ≤ SP ≤ STACK_DEPTH (10_state.md R35). -/
  sp       : s.sp ≤ s.cfg.stackDepth
  /-- Every saved address was fetched from (20_memory.md R55). -/
  entries  : ∀ w ∈ s.stack, w.toNat ≤ 0x0FFE
  /-- IP never passes 0x10FE (10_state.md R26). -/
  ip       : s.ip.toNat ≤ 0x10FE
  /-- A waiting machine's IP is the address of an FX0A that was fetched (44_input_timers.md R214). -/
  awaiting : s.awaiting ≠ none → s.ip.toNat ≤ 0x0FFE

/-- The font region holds the 80 bytes of `table` (20_memory.md R65). -/
def FontIs (table : Vector Byte 80) (s : State) : Prop :=
  ∀ (k : Nat) (h : k < 80), s.mem.read k = table[k]

/-! ## Accesses -/

/-- A program write at `a` is allowed (20_memory.md R52, R54). -/
def Writable (a : Nat) : Prop := 0x050 ≤ a ∧ a ≤ 0xFFF

/-- A program read at `a` is allowed (20_memory.md R52, R53). -/
def Readable (a : Nat) : Prop := a ≤ 0xFFF

/-- The error a program write at the failing address `a` raises (20_memory.md R54). -/
def writeErrorAt (ip : Word) (a : Nat) : Error :=
  if 0x1000 ≤ a then .addressError ip a .write else .protectedWriteError ip a

/-! ## Sprites -/

/-- The sprite of N = `n` rows at I, drawn at (V[X], V[Y]), has a set bit whose pixel is (px, py)
(43_display.md R192, R193). -/
def SpriteCovers (s : State) (x y : RegIdx) (n : Nat) (px : Fin 64) (py : Fin 32) : Prop :=
  ∃ r c, r < n ∧ c < 8 ∧ (s.mem.read (s.i.toNat + r)).getLsbD (7 - c) = true ∧
    match s.cfg.drawEdge with
    | .wrap => px.val = ((s.reg x).toNat + c) % 64 ∧ py.val = ((s.reg y).toNat + r) % 32
    | .clip => px.val = (s.reg x).toNat % 64 + c ∧ py.val = (s.reg y).toNat % 32 + r

end Sys2Proof.Machine
end

