-- ==== Sys2Proof/Certificates/Slice0/Obligations.lean ====
section
/-! DEFINITION. The statements for the provers. Every state quantified over has every configuration, so each holds
for every value of the parameters of 00_scope.md R9. -/

open Sys2Proof Sys2Proof.Machine

/-! ## Encoding and decode -/

/-- Decode of the word with every operand in its field is the instruction, and decode of encode is the instruction with
0 in the Y of SHR and SHL and is the instruction itself for every other, for every well-formed instruction, every
operand value and both values of STRICT_DECODE; on bytes the two bytes are consumed and the rest is left; and that 0
changes no execution (30_encoding.md R70, R72, R77, R83, R87; 0 in Y is decision D25 of 92_eei_decisions.md). -/
def Obligations.DecodeOfEncodeIsTheInstruction : Prop :=
  (∀ (strict : Bool) (i : Instr) (rest : List Byte), i.wellFormed = true →
    decodeWord strict (fieldWord i) = .ok i ∧
    decodeBytes strict (hiByte (fieldWord i) :: loByte (fieldWord i) :: rest) = .ok (i, rest) ∧
    decodeWord strict (encode i) = .ok i.canonical ∧
    decodeBytes strict (encodeBytes i ++ rest) = .ok (i.canonical, rest) ∧
    ((∀ x y, i ≠ .shr x y ∧ i ≠ .shl x y) → decodeWord strict (encode i) = .ok i) ∧
    (∀ x y, i = .shr x y → decodeWord strict (encode i) = .ok (.shr x 0)) ∧
    (∀ x y, i = .shl x y → decodeWord strict (encode i) = .ok (.shl x 0))) ∧
  (∀ (i : Instr) (s : State), exec i.canonical s = exec i s)

/-- Under STRICT_DECODE whatever decodes is well-formed, and the word is the instruction's with every operand in its
field; encode gives the word back too, but for 8XY6 and 8XYE, where it puts 0 in bits 7:4 (30_encoding.md R75, R76, R83,
R87; 0 in Y is decision D25 of 92_eei_decisions.md). -/
def Obligations.StrictWordsEncodeBack : Prop :=
  ∀ (w : Word) (i : Instr), decodeWord true w = .ok i → i.wellFormed = true ∧ fieldWord i = w ∧
    (w.toNat / 4096 = 0x8 ∧ (w.toNat % 16 = 0x6 ∨ w.toNat % 16 = 0xE) → encode i = w &&& 0xFF0F) ∧
    (¬ (w.toNat / 4096 = 0x8 ∧ (w.toNat % 16 = 0x6 ∨ w.toNat % 16 = 0xE)) → encode i = w)

/-- Whatever decodes, under either value of STRICT_DECODE, is well-formed and matches its opcode-table row: the word's
bits under the row's mask are the row's match (30_encoding.md R74, R83). -/
def Obligations.DecodedWordsMatchTheirTableRow : Prop :=
  ∀ (strict : Bool) (w : Word) (i : Instr), decodeWord strict w = .ok i →
    i.wellFormed = true ∧ w &&& (tableRow i).1 = (tableRow i).2

/-- The illegal words are exactly the DecodeError cases of families 0x0, 0x5, 0x8, 0x9, 0xE and 0xF, under both values
of STRICT_DECODE (30_encoding.md R75 to R81). -/
def Obligations.IllegalWordsAreExactlyTheListedOnes : Prop :=
  ∀ (strict : Bool) (w : Word),
    (∃ r, decodeWord strict w = .error r) ↔
      (w.toNat / 4096 = 0x0 ∧ strict = false ∧ w.toNat % 16 ≠ 0x0 ∧ w.toNat % 16 ≠ 0xE) ∨
      (w.toNat / 4096 = 0x0 ∧ strict = true ∧ w.toNat ≠ 0x00E0 ∧ w.toNat ≠ 0x00EE) ∨
      (w.toNat / 4096 = 0x5 ∧ strict = true ∧ w.toNat % 16 ≠ 0) ∨
      (w.toNat / 4096 = 0x8 ∧ w.toNat % 16 ∈ [0x8, 0x9, 0xA, 0xB, 0xC, 0xD, 0xF]) ∨
      (w.toNat / 4096 = 0x9 ∧ strict = true ∧ w.toNat % 16 ≠ 0) ∨
      (w.toNat / 4096 = 0xE ∧ w.toNat % 256 ∉ [0x9E, 0xA1]) ∨
      (w.toNat / 4096 = 0xF ∧ w.toNat % 256 ∉ [0x07, 0x0A, 0x15, 0x18, 0x1E, 0x29, 0x33, 0x55, 0x65])

/-- Words written out from the opcode map decode to the instructions they stand for, or are rejected (30_encoding.md
R74; 95_test_vectors.md sections 1 and 2.1). -/
def Obligations.WrittenOutWordsDecode : Prop :=
  decodeWord false 0x00E0 = .ok .cls ∧ decodeWord true 0x00EE = .ok .ret ∧
  decodeWord false 0x0120 = .ok .cls ∧ decodeWord true 0x0120 = .error .family0 ∧
  decodeWord false 0x1234 = .ok (.jp 0x234) ∧ decodeWord false 0x332A = .ok (.seImm 3 0x2A) ∧
  decodeWord false 0x8564 = .ok (.addReg 5 6) ∧ decodeWord false 0x801D = .error .family8 ∧
  decodeWord false 0xC30F = .ok (.rnd 3 0x0F) ∧ decodeWord false 0xDAB5 = .ok (.drw 0xA 0xB 5) ∧
  decodeWord false 0xE29E = .ok (.skp 2) ∧ decodeWord false 0xF265 = .ok (.ldRegs 2)

/-! ## The cycle -/

/-- A step runs the decoded instruction, and adds nothing to it: with HALT and AW none, when the two bytes at IP and
IP + 1, the byte at IP in bits 15:8, decode to `i`, the step is exec of `i` (30_encoding.md R90; 20_memory.md R55). -/
def Obligations.StepRunsTheFetchedInstruction : Prop :=
  ∀ (s : State) (w : Word) (i : Instr), s.halt = none → s.awaiting = none → s.ip.toNat + 1 ≤ 0xFFF →
    w.toNat = (s.mem.read s.ip.toNat).toNat * 256 + (s.mem.read (s.ip.toNat + 1)).toNat →
    decodeWord s.cfg.strictDecode w = .ok i → step s = exec i s

/-- A word placed where the next fetch reads is what the next step runs, for every instruction word and every state
whose memory is canonical (20_memory.md R55, R63; the model's own `withFetchWord`, log entry 7). -/
def Obligations.PlacedWordIsFetchedAndRun : Prop :=
  ∀ (s : State) (w : Nat) (i : Instr), s.mem.wf → w < 65536 →
    decodeWord s.cfg.strictDecode (BitVec.ofNat 16 w) = .ok i →
    step (s.withFetchWord 16 w) = exec i (s.withFetchWord 16 w)

/-- A fetch whose pair of bytes leaves memory raises AddressError at the first byte of the pair that is out of range,
and changes nothing but HALT (20_memory.md R55, "the recorded address is the first address of the pair that is out of
range"; decisions D1, D3 and D4 of 92_eei_decisions.md; an error as a next state is log entry 1). -/
def Obligations.FetchPastMemoryRaisesAddressError : Prop :=
  ∀ (s : State), s.halt = none → s.awaiting = none →
    (s.ip.toNat = 0xFFF → step s = .next { s with halt := some (.addressError s.ip 0x1000 .fetch) }) ∧
    (0x1000 ≤ s.ip.toNat → step s = .next { s with halt := some (.addressError s.ip s.ip.toNat .fetch) })

/-- An illegal opcode raises DecodeError with IP, the opcode and the signed offset from 0x200, and changes nothing but
HALT (30_encoding.md R81; 60_exceptions.md R241, R242; the signed offset is decision D23, the HALT record D4 of
92_eei_decisions.md; an error as a next state is log entry 1). -/
def Obligations.IllegalOpcodeRaisesDecodeError : Prop :=
  ∀ (s : State) (w : Word) (r : Reject), s.halt = none → s.awaiting = none → s.ip.toNat + 1 ≤ 0xFFF →
    w.toNat = (s.mem.read s.ip.toNat).toNat * 256 + (s.mem.read (s.ip.toNat + 1)).toNat →
    decodeWord s.cfg.strictDecode w = .error r →
    step s = .next { s with halt := some (.decodeError s.ip w ((s.ip.toNat : Int) - 512)) }

/-- No cycle runs while HALT is not none: the step answers the fault that names the error (30_encoding.md R90,
"executed only while HALT = none"; the fault is the model's choice, log entry 1). -/
def Obligations.HaltedMachineRunsNoCycle : Prop :=
  ∀ (s : State) (e : Error), s.halt = some e → step s = .fault (.halted e)

/-- A wait cycle: with no key pressed nothing changes; with one pressed, some pressed key's index is stored, AW is
cleared and IP moves past the FX0A; no wait cycle raises an error (44_input_timers.md R214; level-triggered and any
pressed key by decision D18 of 92_eei_decisions.md). -/
def Obligations.WaitCycleStoresAPressedKeyOrChangesNothing : Prop :=
  ∀ (s : State) (r : RegIdx), s.halt = none → s.awaiting = some r →
    ((∀ k, s.keys.get k = false) → step s = .next s) ∧
    ((∃ k, s.keys.get k = true) → ∃ t k, step s = .next t ∧ s.keys.get k = true ∧ (t.reg r).toNat = k.val ∧
      t.awaiting = none ∧ t.ip = s.ip + 2 ∧ Frame { regs := [r], awaiting := true, draws := true } s t)

/-- Errors are precise: a cycle that raises writes HALT and nothing else, and the error is a run-time error, codes 2
to 6 (60_exceptions.md R240, R242; decisions D3, D4, D39 of 92_eei_decisions.md; an error as a next state is log entry
1). -/
def Obligations.ErrorsArePrecise : Prop :=
  ∀ (s t : State) (e : Error), s.halt = none → step s = .next t → t.halt = some e →
    t = { s with halt := some e } ∧ 2 ≤ e.code ∧ e.code ≤ 6

/-! ## Control transfer -/

/-- JP NNN: 1NNN sets IP to NNN and nothing else; a target of 0xFFF makes the next fetch raise AddressError
(40_control.md R101; the AddressError is decision D1 of 92_eei_decisions.md; an error as a next state is log entry 1).
-/
def Obligations.JpSetsIpToItsAddress : Prop :=
  ∀ (nnn : Addr12) (s : State), DecodesTo (packA 0x1 nnn) (.jp nnn) ∧
    ∃ t, exec (.jp nnn) s = .next t ∧ t.ip.toNat = nnn.toNat ∧ Frame {} s t ∧
      (nnn = 0xFFF → s.halt = none → s.awaiting = none →
        step t = .next { t with halt := some (.addressError 0x0FFF 0x1000 .fetch) })

/-- JP V0, NNN: BNNN sets IP to the exact sum NNN + V0, at most 0x10FE and not reduced to 12 bits; a sum above 0x0FFE
makes the next fetch raise AddressError (40_control.md R107; the unreduced sum is decision D6 and the AddressError D1
of 92_eei_decisions.md; an error as a next state is log entry 1). -/
def Obligations.JpV0SetsIpToTheExactSum : Prop :=
  ∀ (nnn : Addr12) (s : State), DecodesTo (packA 0xB nnn) (.jpV0 nnn) ∧
    ∃ t, exec (.jpV0 nnn) s = .next t ∧ t.ip.toNat = nnn.toNat + (s.reg 0).toNat ∧ t.ip.toNat ≤ 0x10FE ∧
      Frame {} s t ∧
      (0x0FFE < t.ip.toNat → s.halt = none → s.awaiting = none →
        ∃ a, step t = .next { t with halt := some (.addressError t.ip a .fetch) })

/-- CALL NNN: 2NNN saves its own address in S[SP], increments SP and jumps to NNN; with SP = STACK_DEPTH it raises
StackOverflow and no other state changes (40_control.md R102; the HALT record is decision D4 of 92_eei_decisions.md;
an error as a next state is log entry 1). -/
def Obligations.CallSavesItsAddressAndJumps : Prop :=
  ∀ (nnn : Addr12) (s : State), DecodesTo (packA 0x2 nnn) (.call nnn) ∧
    (s.sp = s.cfg.stackDepth → exec (.call nnn) s = .next { s with halt := some (.stackOverflow s.ip) }) ∧
    (s.sp < s.cfg.stackDepth → s.stack.length = s.cfg.stackDepth →
      ∃ t, exec (.call nnn) s = .next t ∧ t.stackEntry s.sp = s.ip ∧ t.sp = s.sp + 1 ∧
        t.ip.toNat = nnn.toNat ∧ (∀ k, k ≠ s.sp → t.stackEntry k = s.stackEntry k) ∧
        Frame { stack := true } s t)

/-- RET: 00EE, and every 0iiE under the default decode, decrements SP and sets IP to the saved address + 2, the popped
entry keeping its value; with SP = 0 it raises StackUnderflow and no other state changes; a saved 0x0FFE resumes at
0x1000, whose fetch raises AddressError (40_control.md R100; the AddressError is decision D1 and the HALT record D4 of
92_eei_decisions.md; an error as a next state is log entry 1, a stack entry no run reaches log entry 8). -/
def Obligations.RetResumesAfterTheSavedAddress : Prop :=
  DecodesTo 0x00EE .ret ∧
  (∀ w : Word, w.toNat / 4096 = 0 → w.toNat % 16 = 0xE → decodeWord false w = .ok .ret) ∧
  ∀ (s : State),
    (s.sp = 0 → exec .ret s = .next { s with halt := some (.stackUnderflow s.ip) }) ∧
    (0 < s.sp → ∃ t, exec .ret s = .next t ∧ t.sp = s.sp - 1 ∧ t.stack = s.stack ∧
      t.ip = s.stackEntry (s.sp - 1) + 2 ∧ Frame { stack := true } s t ∧
      (s.stackEntry (s.sp - 1) = 0x0FFE → s.halt = none → s.awaiting = none →
        step t = .next { t with halt := some (.addressError 0x1000 0x1000 .fetch) }))

/-- A call followed by a return resumes at the instruction after the call, with SP and every register as before
(40_control.md R100, R102, "exactly at the instruction following the call"). -/
def Obligations.CallThenRetResumesAfterTheCall : Prop :=
  ∀ (nnn : Addr12) (s : State), s.sp < s.cfg.stackDepth → s.stack.length = s.cfg.stackDepth →
    ∃ t u, exec (.call nnn) s = .next t ∧ exec .ret t = .next u ∧ u.ip = s.ip + 2 ∧ u.sp = s.sp ∧
      (∀ k, k < s.sp → u.stackEntry k = s.stackEntry k) ∧ Frame { stack := true } s u

/-- SE Vx, NN and SNE Vx, NN: 3XNN and 4XNN set IP to IP + 4 when V[X] = NN and V[X] ≠ NN, to IP + 2 otherwise, and
write nothing else (40_control.md R103, R104, R108). -/
def Obligations.ImmediateSkipsPassOneWord : Prop :=
  ∀ (x : RegIdx) (nn : Byte) (s : State),
    DecodesTo (packXK 0x3 x nn) (.seImm x nn) ∧ DecodesTo (packXK 0x4 x nn) (.sneImm x nn) ∧
    (∃ t, exec (.seImm x nn) s = .next t ∧ t.ip = (if s.reg x = nn then s.ip + 4 else s.ip + 2) ∧ Frame {} s t) ∧
    (∃ t, exec (.sneImm x nn) s = .next t ∧ t.ip = (if s.reg x = nn then s.ip + 2 else s.ip + 4) ∧ Frame {} s t)

/-- SE Vx, Vy and SNE Vx, Vy: 5XY0 and 9XY0, bits 3:0 ignored under the default decode and a DecodeError otherwise,
skip one word when V[X] = V[Y] and V[X] ≠ V[Y], and write nothing else (40_control.md R105, R106, R108). -/
def Obligations.RegisterSkipsPassOneWord : Prop :=
  ∀ (x y : RegIdx) (n : Fin 16) (s : State),
    decodeWord false (packXYN 0x5 x y n.val) = .ok (.seReg x y) ∧
    decodeWord false (packXYN 0x9 x y n.val) = .ok (.sneReg x y) ∧
    decodeWord true (packXYN 0x5 x y n.val) = (if n = 0 then .ok (.seReg x y) else .error .family5) ∧
    decodeWord true (packXYN 0x9 x y n.val) = (if n = 0 then .ok (.sneReg x y) else .error .family9) ∧
    (∃ t, exec (.seReg x y) s = .next t ∧ t.ip = (if s.reg x = s.reg y then s.ip + 4 else s.ip + 2) ∧ Frame {} s t) ∧
    (∃ t, exec (.sneReg x y) s = .next t ∧ t.ip = (if s.reg x = s.reg y then s.ip + 2 else s.ip + 4) ∧ Frame {} s t)

/-! ## Loads, arithmetic and logic -/

/-- LD Vx, NN: 6XNN loads NN into V[X] and writes nothing else (41_alu.md R131). -/
def Obligations.LdImmLoadsTheByte : Prop :=
  ∀ (x : RegIdx) (nn : Byte) (s : State), DecodesTo (packXK 0x6 x nn) (.ldImm x nn) ∧
    ∃ t, exec (.ldImm x nn) s = .next t ∧ t.reg x = nn ∧ t.ip = s.ip + 2 ∧ Frame { regs := [x] } s t

/-- ADD Vx, NN: 7XNN adds modulo 256 and writes no flag (41_alu.md R132; no flag is decision D11 of
92_eei_decisions.md). -/
def Obligations.AddImmWrapsAndWritesNoFlag : Prop :=
  ∀ (x : RegIdx) (nn : Byte) (s : State), DecodesTo (packXK 0x7 x nn) (.addImm x nn) ∧
    ∃ t, exec (.addImm x nn) s = .next t ∧ (t.reg x).toNat = ((s.reg x).toNat + nn.toNat) % 256 ∧
      t.ip = s.ip + 2 ∧ Frame { regs := [x] } s t

/-- LD Vx, Vy: 8XY0 copies V[Y] into V[X] and writes nothing else (41_alu.md R133). -/
def Obligations.LdRegCopiesTheRegister : Prop :=
  ∀ (x y : RegIdx) (s : State), DecodesTo (packXYN 0x8 x y 0x0) (.ldReg x y) ∧
    ∃ t, exec (.ldReg x y) s = .next t ∧ t.reg x = s.reg y ∧ t.ip = s.ip + 2 ∧ Frame { regs := [x] } s t

/-- OR, AND, XOR: 8XY1, 8XY2, 8XY3 combine bit by bit and write no flag (41_alu.md R134, R135, R136; no flag is
decision D11 of 92_eei_decisions.md). -/
def Obligations.LogicOpsCombineBitsAndWriteNoFlag : Prop :=
  ∀ (x y : RegIdx) (s : State),
    DecodesTo (packXYN 0x8 x y 0x1) (.orReg x y) ∧ DecodesTo (packXYN 0x8 x y 0x2) (.andReg x y) ∧
    DecodesTo (packXYN 0x8 x y 0x3) (.xorReg x y) ∧
    (∃ t, exec (.orReg x y) s = .next t ∧
      (∀ b, (t.reg x).getLsbD b = ((s.reg x).getLsbD b || (s.reg y).getLsbD b)) ∧
      t.ip = s.ip + 2 ∧ Frame { regs := [x] } s t) ∧
    (∃ t, exec (.andReg x y) s = .next t ∧
      (∀ b, (t.reg x).getLsbD b = ((s.reg x).getLsbD b && (s.reg y).getLsbD b)) ∧
      t.ip = s.ip + 2 ∧ Frame { regs := [x] } s t) ∧
    (∃ t, exec (.xorReg x y) s = .next t ∧
      (∀ b, (t.reg x).getLsbD b = ((s.reg x).getLsbD b ^^ (s.reg y).getLsbD b)) ∧
      t.ip = s.ip + 2 ∧ Frame { regs := [x] } s t)

/-- ADD Vx, Vy: 8XY4, the sum modulo 256, flag 1 iff the exact sum exceeds 255, and nothing else written (41_alu.md
R137). -/
def Obligations.AddRegSetsTheCarryFlag : Prop :=
  ∀ (x y : RegIdx) (s : State), DecodesTo (packXYN 0x8 x y 0x4) (.addReg x y) ∧
    ∃ t, exec (.addReg x y) s = .next t ∧
      FlaggedWrite x (((s.reg x).toNat + (s.reg y).toNat) % 256)
        (if (s.reg x).toNat + (s.reg y).toNat > 255 then 1 else 0) s t ∧
      t.ip = s.ip + 2 ∧ Frame { regs := [x, VF] } s t

/-- SUB Vx, Vy: 8XY5, the difference modulo 256, flag 1 iff V[X] ≥ V[Y], and nothing else written (41_alu.md R138). -/
def Obligations.SubRegSetsTheNoBorrowFlag : Prop :=
  ∀ (x y : RegIdx) (s : State), DecodesTo (packXYN 0x8 x y 0x5) (.subReg x y) ∧
    ∃ t, exec (.subReg x y) s = .next t ∧
      FlaggedWrite x (if (s.reg x).toNat ≥ (s.reg y).toNat then (s.reg x).toNat - (s.reg y).toNat
          else 256 + (s.reg x).toNat - (s.reg y).toNat)
        (if (s.reg x).toNat ≥ (s.reg y).toNat then 1 else 0) s t ∧
      t.ip = s.ip + 2 ∧ Frame { regs := [x, VF] } s t

/-- SUBN Vx, Vy: 8XY7, V[Y] − V[X] modulo 256, the flag by SUBN_FLAG: V[Y] ≥ V[X] under no_borrow, V[Y] > V[X] under
strict (41_alu.md R140). -/
def Obligations.SubnRegSetsTheFlagByItsConvention : Prop :=
  ∀ (x y : RegIdx) (s : State), DecodesTo (packXYN 0x8 x y 0x7) (.subnReg x y) ∧
    ∃ t, exec (.subnReg x y) s = .next t ∧
      FlaggedWrite x (if (s.reg y).toNat ≥ (s.reg x).toNat then (s.reg y).toNat - (s.reg x).toNat
          else 256 + (s.reg y).toNat - (s.reg x).toNat)
        (match s.cfg.subnFlag with
          | .noBorrow => if (s.reg y).toNat ≥ (s.reg x).toNat then 1 else 0
          | .strict => if (s.reg y).toNat > (s.reg x).toNat then 1 else 0) s t ∧
      t.ip = s.ip + 2 ∧ Frame { regs := [x, VF] } s t

/-- SHR Vx and SHL Vx: 8XY6 and 8XYE shift V[X] by one, the flag being the bit shifted out; Y has no effect (41_alu.md
R139, R141). -/
def Obligations.ShiftsMoveTheLostBitToTheFlag : Prop :=
  ∀ (x y : RegIdx) (s : State),
    DecodesTo (packXYN 0x8 x y 0x6) (.shr x y) ∧ DecodesTo (packXYN 0x8 x y 0xE) (.shl x y) ∧
    (∃ t, exec (.shr x y) s = .next t ∧
      FlaggedWrite x ((s.reg x).toNat / 2) ((s.reg x).toNat % 2) s t ∧
      t.ip = s.ip + 2 ∧ Frame { regs := [x, VF] } s t) ∧
    (∃ t, exec (.shl x y) s = .next t ∧
      FlaggedWrite x ((s.reg x).toNat * 2 % 256) ((s.reg x).toNat / 128) s t ∧
      t.ip = s.ip + 2 ∧ Frame { regs := [x, VF] } s t)

/-- RND Vx, NN: CXNN loads the drawn byte under the mask NN; mask bits that are clear are clear in the result, and the
next execution draws anew (41_alu.md R142; the byte as an unconstrained draw is decision D20 of 92_eei_decisions.md,
here the free value of log entry 3: nothing is said of its value). -/
def Obligations.RndLoadsTheMaskedDraw : Prop :=
  ∀ (x : RegIdx) (nn : Byte) (s : State), DecodesTo (packXK 0xC x nn) (.rnd x nn) ∧
    ∃ t, exec (.rnd x nn) s = .next t ∧ t.reg x = Config.drawByte s.draws &&& nn ∧
      (∀ b, nn.getLsbD b = false → (t.reg x).getLsbD b = false) ∧ t.draws = s.draws + 1 ∧
      t.ip = s.ip + 2 ∧ Frame { regs := [x], draws := true } s t

/-- WriteWithFlag: with X ≠ 0xF both orders give the same state; with X = 0xF, VF ends as the flag under flag_last and
as the result under result_last (41_alu.md R143). -/
def Obligations.WriteWithFlagOrdersTheTwoWrites : Prop :=
  ∀ (x : RegIdx) (result flag : Byte) (s : State),
    (∀ r, r ≠ x → r ≠ VF → (writeWithFlag x result flag s).reg r = s.reg r) ∧
    (x ≠ VF → (writeWithFlag x result flag s).reg x = result ∧ (writeWithFlag x result flag s).reg VF = flag ∧
      ((s.setReg x result).setReg VF flag) = ((s.setReg VF flag).setReg x result)) ∧
    (x = VF → s.cfg.vfOrder = .flagLast → (writeWithFlag x result flag s).reg VF = flag) ∧
    (x = VF → s.cfg.vfOrder = .resultLast → (writeWithFlag x result flag s).reg VF = result)

/-! ## Index register and memory transfer -/

/-- LD I, NNN: ANNN sets I to the 12-bit address, unchecked (42_index_memory.md R160). -/
def Obligations.LdISetsTheIndex : Prop :=
  ∀ (nnn : Addr12) (s : State), DecodesTo (packA 0xA nnn) (.ldI nnn) ∧
    ∃ t, exec (.ldI nnn) s = .next t ∧ t.i.toNat = nnn.toNat ∧ t.ip = s.ip + 2 ∧ Frame { index := true } s t

/-- ADD I, Vx: FX1E adds V[X] to I modulo 65536 and writes no flag (42_index_memory.md R161; the wrap and the flag are
decision D12 of 92_eei_decisions.md). -/
def Obligations.AddIWrapsAtSixteenBits : Prop :=
  ∀ (x : RegIdx) (s : State), DecodesTo (packXK 0xF x 0x1E) (.addI x) ∧
    ∃ t, exec (.addI x) s = .next t ∧ t.i.toNat = (s.i.toNat + (s.reg x).toNat) % 65536 ∧
      t.ip = s.ip + 2 ∧ Frame { index := true } s t

/-- LD F, Vx: FX29 sets I to 5 times the digit, the digit being V[X]'s low nibble or V[X] whole by FONT_DIGIT
(42_index_memory.md R162). -/
def Obligations.LdFPointsAtTheGlyph : Prop :=
  ∀ (x : RegIdx) (s : State), DecodesTo (packXK 0xF x 0x29) (.ldF x) ∧
    ∃ t, exec (.ldF x) s = .next t ∧
      t.i.toNat = 5 * (match s.cfg.fontDigit with
        | .lowNibble => (s.reg x).toNat % 16
        | .full => (s.reg x).toNat) ∧
      t.ip = s.ip + 2 ∧ Frame { index := true } s t

/-- LD B, Vx: FX33 stores hundreds, tens and ones at I, I + 1, I + 2, each a value 0..9, when all three addresses may
be written (42_index_memory.md R163; digit values are decision D33, the checks D1 to D3 of 92_eei_decisions.md). -/
def Obligations.LdBStoresThreeDecimalDigits : Prop :=
  ∀ (x : RegIdx) (s : State), DecodesTo (packXK 0xF x 0x33) (.ldB x) ∧
    (s.mem.wf → (∀ a ∈ bcdAddrs s, Writable a) →
      ∃ t, exec (.ldB x) s = .next t ∧
        (s.reg x).toNat = 100 * (t.mem.read s.i.toNat).toNat + 10 * (t.mem.read (s.i.toNat + 1)).toNat +
          (t.mem.read (s.i.toNat + 2)).toNat ∧
        (t.mem.read (s.i.toNat + 1)).toNat ≤ 9 ∧ (t.mem.read (s.i.toNat + 2)).toNat ≤ 9 ∧
        t.ip = s.ip + 2 ∧ Frame { mem := bcdAddrs s } s t)

/-- LD [I], Vx: FX55 stores V0..VX at I..I + X when all those addresses may be written; I becomes I + X + 1 modulo
65536 when LS_INCREMENT_I and is unchanged otherwise (42_index_memory.md R164; the checks are decisions D1 to D3 of
92_eei_decisions.md). -/
def Obligations.StRegsStoresTheBlock : Prop :=
  ∀ (x : RegIdx) (s : State), DecodesTo (packXK 0xF x 0x55) (.stRegs x) ∧
    (s.mem.wf → (∀ a ∈ blockAddrs s x, Writable a) →
      ∃ t, exec (.stRegs x) s = .next t ∧
        (∀ r : RegIdx, r ≤ x → t.mem.read (s.i.toNat + r.val) = s.reg r) ∧
        t.i.toNat = (if s.cfg.lsIncrementI then (s.i.toNat + x.val + 1) % 65536 else s.i.toNat) ∧
        t.ip = s.ip + 2 ∧ Frame { index := true, mem := blockAddrs s x } s t)

/-- LD Vx, [I]: FX65 loads V0..VX from I..I + X when all those addresses exist; I as in FX55 (42_index_memory.md R165;
the checks are decisions D1 and D3 of 92_eei_decisions.md). -/
def Obligations.LdRegsLoadsTheBlock : Prop :=
  ∀ (x : RegIdx) (s : State), DecodesTo (packXK 0xF x 0x65) (.ldRegs x) ∧
    ((∀ a ∈ blockAddrs s x, Readable a) →
      ∃ t, exec (.ldRegs x) s = .next t ∧
        (∀ r : RegIdx, r ≤ x → t.reg r = s.mem.read (s.i.toNat + r.val)) ∧
        t.i.toNat = (if s.cfg.lsIncrementI then (s.i.toNat + x.val + 1) % 65536 else s.i.toNat) ∧
        t.ip = s.ip + 2 ∧ Frame { regs := regsUpTo x, index := true } s t)

/-- A store then a load of the same block, whatever the registers held in between, gives the stored registers back and
leaves the others alone (42_index_memory.md R164, R165; 20_memory.md R61). -/
def Obligations.StoredBlockLoadsBack : Prop :=
  ∀ (x : RegIdx) (s : State) (regs : Vector Byte 16), s.mem.wf → (∀ a ∈ blockAddrs s x, Writable a) →
    ∃ t u, exec (.stRegs x) s = .next t ∧ exec (.ldRegs x) { t with i := s.i, v := regs } = .next u ∧
      (∀ r : RegIdx, r ≤ x → u.reg r = s.reg r) ∧ (∀ r : RegIdx, x < r → u.reg r = regs.get r)

/-- FX33 and FX55 raise the error of the lowest failing address, AddressError past 0xFFF and ProtectedWriteError in
the font region, and change nothing but HALT (20_memory.md R54, R59; 60_exceptions.md R244; decisions D1 to D4 and D22
of 92_eei_decisions.md; an error as a next state is log entry 1). -/
def Obligations.StoresRaiseTheLowestFailingAddress : Prop :=
  ∀ (x : RegIdx) (s : State) (a : Nat), ¬ Writable a →
    (a ∈ bcdAddrs s → (∀ b ∈ bcdAddrs s, b < a → Writable b) →
      exec (.ldB x) s = .next { s with halt := some (writeErrorAt s.ip a) }) ∧
    (a ∈ blockAddrs s x → (∀ b ∈ blockAddrs s x, b < a → Writable b) →
      exec (.stRegs x) s = .next { s with halt := some (writeErrorAt s.ip a) })

/-- FX65 and DXYN raise AddressError at the lowest address past 0xFFF and change nothing but HALT (20_memory.md R53,
R59; 60_exceptions.md R244; decisions D1, D3, D4 and D22 of 92_eei_decisions.md; an error as a next state is log entry
1). -/
def Obligations.LoadsRaiseTheLowestFailingAddress : Prop :=
  ∀ (x y : RegIdx) (n : Nat) (s : State) (a : Nat), ¬ Readable a →
    (a ∈ blockAddrs s x → (∀ b ∈ blockAddrs s x, b < a → Readable b) →
      exec (.ldRegs x) s = .next { s with halt := some (.addressError s.ip a .read) }) ∧
    (a ∈ spriteAddrs s n → (∀ b ∈ spriteAddrs s n, b < a → Readable b) →
      exec (.drw x y n) s = .next { s with halt := some (.addressError s.ip a .read) })

/-! ## Display -/

/-- CLS: 00E0, and every 0ii0 under the default decode, makes every pixel unlit and writes nothing else (43_display.md
R191). -/
def Obligations.ClsMakesEveryPixelUnlit : Prop :=
  DecodesTo 0x00E0 .cls ∧
  (∀ w : Word, w.toNat / 4096 = 0 → w.toNat % 16 = 0 → decodeWord false w = .ok .cls) ∧
  ∀ (s : State), ∃ t, exec .cls s = .next t ∧ (∀ px py, t.fb.pixel px py = false) ∧
    t.ip = s.ip + 2 ∧ Frame { fb := true } s t

/-- DRW Vx, Vy, N: DXYN turns exactly the pixels its sprite covers, sets VF to 1 iff a covered pixel was lit, and
leaves I and everything else alone (43_display.md R190, R192, R193; edges are the parameter DRAW_EDGE, N = 0 decision
D16 and the bit order D17 of 92_eei_decisions.md). -/
def Obligations.DrwTogglesExactlyTheCoveredPixels : Prop :=
  ∀ (x y : RegIdx) (n : Nat) (s : State), n ≤ 15 → DecodesTo (packXYN 0xD x y n) (.drw x y n) ∧
    ((∀ a ∈ spriteAddrs s n, Readable a) →
      ∃ t, exec (.drw x y n) s = .next t ∧
        (∀ px py, SpriteCovers s x y n px py → t.fb.pixel px py = !s.fb.pixel px py) ∧
        (∀ px py, ¬ SpriteCovers s x y n px py → t.fb.pixel px py = s.fb.pixel px py) ∧
        ((∃ px py, SpriteCovers s x y n px py ∧ s.fb.pixel px py = true) → t.reg VF = 1) ∧
        ((∀ px py, SpriteCovers s x y n px py → s.fb.pixel px py = false) → t.reg VF = 0) ∧
        t.ip = s.ip + 2 ∧ Frame { regs := [VF], fb := true } s t)

/-- Drawing a sprite twice at the same place, its coordinates not in VF, gives the screen back; on a blank region the
first draw leaves VF = 0, and the second sets it when the sprite covers a pixel (43_display.md R192;
95_test_vectors.md E5). -/
def Obligations.DrawingTwiceRestoresTheScreen : Prop :=
  ∀ (x y : RegIdx) (n : Nat) (s : State), n ≤ 15 → x ≠ VF → y ≠ VF → (∀ a ∈ spriteAddrs s n, Readable a) →
    ∃ t u, exec (.drw x y n) s = .next t ∧ exec (.drw x y n) t = .next u ∧
      (∀ px py, u.fb.pixel px py = s.fb.pixel px py) ∧
      ((∀ px py, SpriteCovers s x y n px py → s.fb.pixel px py = false) → (∃ px py, SpriteCovers s x y n px py) →
        t.reg VF = 0 ∧ u.reg VF = 1)

/-! ## Keys and timers -/

/-- SKP Vx and SKNP Vx: EX9E and EXA1 skip one word when the key of V[X]'s low nibble is, and is not, pressed
(44_input_timers.md R211, R212). -/
def Obligations.KeySkipsTestTheLowNibblesKey : Prop :=
  ∀ (x : RegIdx) (s : State) (k : Fin 16), k.val = (s.reg x).toNat % 16 →
    DecodesTo (packXK 0xE x 0x9E) (.skp x) ∧ DecodesTo (packXK 0xE x 0xA1) (.sknp x) ∧
    (∃ t, exec (.skp x) s = .next t ∧ t.ip = (if s.keys.get k then s.ip + 4 else s.ip + 2) ∧ Frame {} s t) ∧
    (∃ t, exec (.sknp x) s = .next t ∧ t.ip = (if s.keys.get k then s.ip + 2 else s.ip + 4) ∧ Frame {} s t)

/-- LD Vx, K: FX0A stores some pressed key's index and advances; with no key pressed it sets AW to X, IP and
everything else unchanged (44_input_timers.md R213; level-triggered and any pressed key by decision D18 of
92_eei_decisions.md). -/
def Obligations.LdVxKStoresAPressedKeyOrWaits : Prop :=
  ∀ (x : RegIdx) (s : State), DecodesTo (packXK 0xF x 0x0A) (.ldVxK x) ∧
    ((∃ k, s.keys.get k = true) → ∃ t k, exec (.ldVxK x) s = .next t ∧ s.keys.get k = true ∧
      (t.reg x).toNat = k.val ∧ t.ip = s.ip + 2 ∧ Frame { regs := [x], draws := true } s t) ∧
    ((∀ k, s.keys.get k = false) → exec (.ldVxK x) s = .next { s with awaiting := some x })

/-- FX07 reads DT, FX15 writes DT, FX18 writes ST (44_input_timers.md R215, R216, R217; which number is which transfer
is decision D19 of 92_eei_decisions.md, log entry 12). -/
def Obligations.TimerTransfersMoveTheirByte : Prop :=
  ∀ (x : RegIdx) (s : State),
    DecodesTo (packXK 0xF x 0x07) (.ldVxDt x) ∧ DecodesTo (packXK 0xF x 0x15) (.ldDtVx x) ∧
    DecodesTo (packXK 0xF x 0x18) (.ldStVx x) ∧
    (∃ t, exec (.ldVxDt x) s = .next t ∧ t.reg x = s.dt ∧ t.ip = s.ip + 2 ∧ Frame { regs := [x] } s t) ∧
    (∃ t, exec (.ldDtVx x) s = .next t ∧ t.dt = s.reg x ∧ t.ip = s.ip + 2 ∧ Frame { dt := true } s t) ∧
    (∃ t, exec (.ldStVx x) s = .next t ∧ t.st = s.reg x ∧ t.ip = s.ip + 2 ∧ Frame { st := true } s t)

/-! ## Reset, load, batches and the host -/

/-- reset() leaves every piece of state at its reset value, whatever came before, and keeps the configuration
(10_state.md R37; AW and HALT: decision D37 of 92_eei_decisions.md; the draws go on, log entry 13). -/
def Obligations.ResetLeavesTheSpecValues : Prop :=
  State.reset = State.resetWith Config.default ∧
  ∀ (s t : State), hostCall .reset s = t →
    (∀ a, t.mem.read a = 0) ∧ (∀ r, t.reg r = 0) ∧ t.i = 0 ∧ t.ip = 0x0200 ∧
    t.stack.length = s.cfg.stackDepth ∧ (∀ w ∈ t.stack, w = 0) ∧ t.sp = 0 ∧ t.dt = 0 ∧ t.st = 0 ∧
    (∀ px py, t.fb.pixel px py = false) ∧ (∀ k, t.keys.get k = false) ∧ t.awaiting = none ∧ t.halt = none ∧
    t.cfg = s.cfg

/-- The boot order loads: a ROM of at most 3584 bytes gives Ok, the font table at 0x000..0x04F, the ROM from 0x200 and
0x00 everywhere else, the rest of the state as reset() left it (10_state.md R37; 70_reset_and_hazards.md R281 to R283;
load details are decision D28 of 92_eei_decisions.md). -/
def Obligations.BootPlacesFontAndProgram : Prop :=
  ∀ (c : Config) (rom : List Byte), rom.length ≤ 3584 →
    (boot c rom).1 = .ok ∧ FontIs c.font (boot c rom).2 ∧
    (∀ k (h : k < rom.length), (boot c rom).2.mem.read (0x200 + k) = rom[k]) ∧
    (∀ a, 0x050 ≤ a → a < 0x200 ∨ 0x200 + rom.length ≤ a → (boot c rom).2.mem.read a = 0) ∧
    (boot c rom).2 = { State.resetWith c with mem := (boot c rom).2.mem }

/-- load_program on a session that has not failed: more than 3584 bytes is a LoadError that writes HALT alone;
otherwise the bytes stand from 0x200 and every other byte is as before (70_reset_and_hazards.md R282; decisions D28
and D29 of 92_eei_decisions.md). -/
def Obligations.LoadProgramCopiesOrFails : Prop :=
  ∀ (s : State) (bytes : List Byte), s.halt = none →
    (3584 < bytes.length →
      loadProgram bytes s = (.err (.loadError bytes.length), { s with halt := some (.loadError bytes.length) })) ∧
    (bytes.length ≤ 3584 → s.mem.wf → ∃ t, loadProgram bytes s = (.ok, t) ∧
      (∀ k (h : k < bytes.length), t.mem.read (0x200 + k) = bytes[k]) ∧
      (∀ a, a < 0x200 ∨ 0x200 + bytes.length ≤ a → t.mem.read a = s.mem.read a) ∧
      t = { s with mem := t.mem })

/-- Tick: each timer is decremented by one while greater than zero and stays at zero, and nothing else changes; a
batch of n cycles that raises nothing is n steps of the machine and one tick after them, and every batch that returns
Ok is that (60_exceptions.md R250, R251; the count of cycles is decision D32, the tick of an empty batch D30 and HALT
D4 of 92_eei_decisions.md; an error as a next state is log entry 1, a cycle as a step log entry 6). -/
def Obligations.TickDecrementsEachNonzeroTimer : Prop :=
  (∀ (s : State),
    (0 < s.dt.toNat → (tick s).dt.toNat + 1 = s.dt.toNat) ∧ (s.dt = 0 → (tick s).dt = 0) ∧
    (0 < s.st.toNat → (tick s).st.toNat + 1 = s.st.toNat) ∧ (s.st = 0 → (tick s).st = 0) ∧
    tick s = { s with dt := (tick s).dt, st := (tick s).st }) ∧
  (∀ (n : BitVec 32) (s t : State), s.halt = none → Host.Core.run Sys2Proof.core n.toNat s = .next t →
    t.halt = none → runBatch n s = (.ok, tick t)) ∧
  (∀ (n : BitVec 32) (s : State), (runBatch n s).1 = .ok → ∃ t : State,
    Host.Core.run Sys2Proof.core n.toNat s = .next t ∧ t.halt = none ∧ (runBatch n s).2 = tick t)

/-- A batch returns Ok exactly when HALT is none after it and Err(e) exactly when HALT is some e; one whose k-th step
raises e, k at most n, ends in the state of that step, with no tick and no further cycle; and every batch of a session
that has not failed is either n steps without an error or stops so (60_exceptions.md R250, R243; HALT is decision D4
and the count of cycles D32 of 92_eei_decisions.md; an error as a next state is log entry 1, a cycle as a step log
entry 6). -/
def Obligations.BatchResultIsItsHaltRecord : Prop :=
  (∀ (n : BitVec 32) (s : State),
    ((runBatch n s).1 = .ok ↔ (runBatch n s).2.halt = none) ∧
    (∀ e, (runBatch n s).1 = .err e ↔ (runBatch n s).2.halt = some e)) ∧
  (∀ (n : BitVec 32) (k : Nat) (s t : State) (e : Error), k ≤ n.toNat → s.halt = none →
    Host.Core.run Sys2Proof.core k s = .next t → t.halt = some e → runBatch n s = (.err e, t)) ∧
  (∀ (n : BitVec 32) (s : State), s.halt = none →
    (∃ t : State, Host.Core.run Sys2Proof.core n.toNat s = .next t ∧ t.halt = none) ∨
    (∃ (k : Nat) (t : State) (e : Error), 0 < k ∧ k ≤ n.toNat ∧
      Host.Core.run Sys2Proof.core k s = .next t ∧ t.halt = some e))

/-- While a key wait is pending and no key is pressed, a batch of any length changes nothing but the timers' tick
(44_input_timers.md R214; 60_exceptions.md R251, R257; decisions D18 and D32 of 92_eei_decisions.md). -/
def Obligations.WaitingBatchOnlyTicks : Prop :=
  ∀ (n : BitVec 32) (s : State) (r : RegIdx), s.halt = none → s.awaiting = some r → (∀ k, s.keys.get k = false) →
    runBatch n s = (.ok, tick s)

/-- A failed session is frozen: while HALT holds an error every call but reset() leaves the state as it is, run_batch
and load_program answer the error, and reset() clears it (60_exceptions.md R243; decision D4 of 92_eei_decisions.md).
-/
def Obligations.FailedSessionIsFrozenUntilReset : Prop :=
  ∀ (s : State) (e : Error), s.halt = some e →
    (∀ c, c ≠ HostCall.reset → hostCall c s = s) ∧ (∀ n, runBatch n s = (.err e, s)) ∧
    (∀ bytes, loadProgram bytes s = (.err e, s)) ∧ (hostCall .reset s).halt = none

/-- The host's reads and its key call: sound_active is ST > 0, it and framebuffer_snapshot change no state, and
set_input_state writes the one key, so that it does not itself complete a wait (60_exceptions.md R252, R261;
43_display.md R194; decisions D4 and D31 of 92_eei_decisions.md). -/
def Obligations.HostReadsChangeNothingAndKeysAreSetAlone : Prop :=
  ∀ (s : State) (k : RegIdx) (pressed : Bool),
    (soundActive s = true ↔ 0 < s.st.toNat) ∧ hostCall .soundActive s = s ∧
    (∀ px py, (framebufferSnapshot s).pixel px py = s.fb.pixel px py) ∧ hostCall .framebufferSnapshot s = s ∧
    (s.halt = none → ∃ t, hostCall (.setInputState k pressed) s = t ∧ t.keys.get k = pressed ∧
      (∀ j, j ≠ k → t.keys.get j = s.keys.get j) ∧ t = { s with keys := t.keys })

/-! ## Invariants and whole-machine rules -/

/-- The state after reset() meets the invariant, under every configuration with STACK_DEPTH ≥ 1 (10_state.md R35, R37;
00_scope.md R9). -/
def Obligations.ResetMeetsTheInvariant : Prop :=
  State.reset.Inv ∧ ∀ (c : Config), c.wf → (State.resetWith c).Inv

/-- Every step keeps the invariant: memory stays canonical and inside 0x000..0xFFF, SP stays in 0..STACK_DEPTH, every
saved address and every waiting IP is at most 0x0FFE, and IP never passes 0x10FE (10_state.md R26, R27, R35;
20_memory.md R50). -/
def Obligations.StepKeepsTheInvariant : Prop :=
  ∀ (s t : State), s.Inv → step s = .next t → t.Inv

/-- Every run of host calls, in any order, keeps the invariant (60_exceptions.md R258, R260; 10_state.md R26, R35). -/
def Obligations.EveryHostRunKeepsTheInvariant : Prop :=
  ∀ (calls : List HostCall) (s : State), s.Inv → (hostRun calls s).Inv

/-- No step of any program changes a byte of the font region (20_memory.md R52, "fixed at session start and never
overwritten by program logic"; kept by decision D2 of 92_eei_decisions.md). -/
def Obligations.NoStepOverwritesTheFont : Prop :=
  ∀ (s t : State) (a : Nat), s.mem.wf → step s = .next t → a ≤ 0x04F → t.mem.read a = s.mem.read a

/-- The font region keeps a glyph table: the boot places it, whatever the ROM; from every state that holds a table,
reached or not, whose memory is canonical, each call of the host but reset() and load_font keeps it; so it stands from
the boot on through every run of such calls (20_memory.md R52, R65; 70_reset_and_hazards.md R281, "never mutated
afterward"; decision D2 of 92_eei_decisions.md). -/
def Obligations.FontHoldsThroughEverySession : Prop :=
  (∀ (c : Config) (rom : List Byte), FontIs c.font (boot c rom).2) ∧
  (∀ (table : Vector Byte 80) (call : HostCall) (s : State), s.mem.wf → FontIs table s →
    call ≠ .reset → (∀ other, call ≠ .loadFont other) → FontIs table (hostCall call s)) ∧
  (∀ (c : Config) (rom : List Byte) (calls : List HostCall),
    (∀ call ∈ calls, call ≠ .reset ∧ ∀ table, call ≠ .loadFont table) →
    FontIs c.font (hostRun calls (boot c rom).2))

/-- VF is written as a side effect by 8XY4, 8XY5, 8XY6, 8XY7, 8XYE and DXYN alone; any other instruction changes it
only as a named destination (10_state.md R22). -/
def Obligations.OnlyTheListedInstructionsChangeTheFlag : Prop :=
  ∀ (i : Instr) (s t : State), exec i s = .next t → t.reg VF ≠ s.reg VF →
    (∃ x y, i = .addReg x y ∨ i = .subReg x y ∨ i = .shr x y ∨ i = .subnReg x y ∨ i = .shl x y) ∨
    (∃ x y n, i = .drw x y n) ∨
    (∃ nn, i = .ldImm VF nn ∨ i = .addImm VF nn ∨ i = .rnd VF nn) ∨
    (∃ y, i = .ldReg VF y ∨ i = .orReg VF y ∨ i = .andReg VF y ∨ i = .xorReg VF y) ∨
    i = .ldVxDt VF ∨ i = .ldVxK VF ∨ i = .ldRegs VF

/-- Among the instructions, each piece of state has the writers the rules name and no other. V[r]: the instructions
whose destination it is, FX65 with X at least r, and for VF the six that write the flag. I: ANNN, FX1E, FX29 and, with
LS_INCREMENT_I, FX55 and FX65. IP is another than IP + 2 after a jump, CALL, RET or skip, a waiting FX0A or an error
alone. The stack: CALL and RET. DT: FX15. ST: FX18. FB: CLS and DRW. M: FX33 and FX55. AW: FX0A. K: none. HALT: RET,
CALL, DRW, FX33, FX55 and FX65, by an error (10_state.md R20 to R33; 20_memory.md R58; 30_encoding.md R84;
40_control.md R109; 60_exceptions.md R240; HALT is decision D4 and VF's writers D11 and D12 of 92_eei_decisions.md; an
error as a next state is log entry 1). -/
def Obligations.EachPieceOfStateHasItsNamedWriters : Prop :=
  ∀ (i : Instr) (s t : State), exec i s = .next t →
    (∀ r, t.reg r ≠ s.reg r →
      (∃ nn, i = .ldImm r nn ∨ i = .addImm r nn ∨ i = .rnd r nn) ∨
      (∃ y, i = .ldReg r y ∨ i = .orReg r y ∨ i = .andReg r y ∨ i = .xorReg r y ∨ i = .addReg r y ∨
        i = .subReg r y ∨ i = .shr r y ∨ i = .subnReg r y ∨ i = .shl r y) ∨
      i = .ldVxDt r ∨ i = .ldVxK r ∨ (∃ x, r ≤ x ∧ i = .ldRegs x) ∨
      (r = VF ∧ ((∃ x y, i = .addReg x y ∨ i = .subReg x y ∨ i = .shr x y ∨ i = .subnReg x y ∨ i = .shl x y) ∨
        ∃ x y n, i = .drw x y n))) ∧
    (t.i ≠ s.i → (∃ nnn, i = .ldI nnn) ∨ ∃ x, i = .addI x ∨ i = .ldF x ∨
      (s.cfg.lsIncrementI = true ∧ (i = .stRegs x ∨ i = .ldRegs x))) ∧
    (t.ip ≠ s.ip + 2 →
      (∃ nnn, i = .jp nnn ∨ i = .call nnn ∨ i = .jpV0 nnn) ∨ i = .ret ∨
      (∃ x nn, i = .seImm x nn ∨ i = .sneImm x nn) ∨ (∃ x y, i = .seReg x y ∨ i = .sneReg x y) ∨
      (∃ x, i = .skp x ∨ i = .sknp x) ∨ (∃ x, i = .ldVxK x ∧ t = { s with awaiting := some x }) ∨
      ∃ e, t = { s with halt := some e }) ∧
    (t.stack ≠ s.stack ∨ t.sp ≠ s.sp → i = .ret ∨ ∃ nnn, i = .call nnn) ∧
    (t.dt ≠ s.dt → ∃ x, i = .ldDtVx x) ∧ (t.st ≠ s.st → ∃ x, i = .ldStVx x) ∧
    (t.fb ≠ s.fb → i = .cls ∨ ∃ x y n, i = .drw x y n) ∧
    (t.mem ≠ s.mem → ∃ x, i = .ldB x ∨ i = .stRegs x) ∧
    (t.awaiting ≠ s.awaiting → ∃ x, i = .ldVxK x) ∧
    t.keys = s.keys ∧
    (t.halt ≠ s.halt → i = .ret ∨ (∃ nnn, i = .call nnn) ∨ (∃ x y n, i = .drw x y n) ∨
      ∃ x, i = .ldB x ∨ i = .stRegs x ∨ i = .ldRegs x)

/-- No step writes the input latch, which is the host's alone (10_state.md R31; 44_input_timers.md R210); and, as the
model's own choices, none writes the configuration, which log entry 2 holds as a field of State, and none is a
refusal, since an error is a next state or the fault `halted` by log entry 1. -/
def Obligations.StepNeverWritesKeysNorRefuses : Prop :=
  ∀ (s : State), (∀ t, step s = .next t → t.keys = s.keys ∧ t.cfg = s.cfg) ∧ (∀ r, step s ≠ .refused r)
end

