-- ==== Sys2Proof/Laws/Decode.lean ====
section
/-! SUPPORT. The fields of an opcode as divisions, the fields of a packed word, the byte order, and the form that the
encoder writes. -/

namespace Sys2Proof

/-! ## Fields as divisions of the word -/

theorem fieldF_eq (op : Word) : fieldF op = op.toNat / 4096 := by
  have := op.isLt
  simp [fieldF, BitVec.extractLsb'_toNat, Nat.shiftRight_eq_div_pow]; omega

theorem fieldX_val (op : Word) : (fieldX op).val = op.toNat / 256 % 16 := by
  simp [fieldX, BitVec.extractLsb'_toNat, Nat.shiftRight_eq_div_pow]

theorem fieldY_val (op : Word) : (fieldY op).val = op.toNat / 16 % 16 := by
  simp [fieldY, BitVec.extractLsb'_toNat, Nat.shiftRight_eq_div_pow]

theorem fieldN_eq (op : Word) : fieldN op = op.toNat % 16 := by
  simp [fieldN, BitVec.extractLsb'_toNat]

theorem fieldNN_toNat (op : Word) : (fieldNN op).toNat = op.toNat % 256 := by
  simp [fieldNN, BitVec.extractLsb'_toNat]

theorem fieldNNN_toNat (op : Word) : (fieldNNN op).toNat = op.toNat % 4096 := by
  simp [fieldNNN, BitVec.extractLsb'_toNat]

/-! ## Packed words -/

theorem packA_toNat {f : Nat} (nnn : Addr12) (hf : f ≤ 15) : (packA f nnn).toNat = f * 4096 + nnn.toNat := by
  have := nnn.isLt
  simp only [packA, BitVec.toNat_ofNat]; omega

theorem packXK_toNat {f : Nat} (x : RegIdx) (kk : Byte) (hf : f ≤ 15) :
    (packXK f x kk).toNat = f * 4096 + x.val * 256 + kk.toNat := by
  have := kk.isLt; have := x.isLt
  simp only [packXK, BitVec.toNat_ofNat]; omega

theorem packXYN_toNat {f n : Nat} (x y : RegIdx) (hf : f ≤ 15) (hn : n ≤ 15) :
    (packXYN f x y n).toNat = f * 4096 + x.val * 256 + y.val * 16 + n := by
  have := x.isLt; have := y.isLt
  simp only [packXYN, BitVec.toNat_ofNat]; omega

theorem fieldF_packA {f : Nat} (nnn : Addr12) (hf : f ≤ 15) : fieldF (packA f nnn) = f := by
  have := nnn.isLt
  rw [fieldF_eq, packA_toNat nnn hf]; omega

theorem fieldNNN_packA {f : Nat} (nnn : Addr12) (hf : f ≤ 15) : fieldNNN (packA f nnn) = nnn := by
  have := nnn.isLt
  apply BitVec.eq_of_toNat_eq
  rw [fieldNNN_toNat, packA_toNat nnn hf]; omega

theorem fieldF_packXK {f : Nat} (x : RegIdx) (kk : Byte) (hf : f ≤ 15) : fieldF (packXK f x kk) = f := by
  have := kk.isLt; have := x.isLt
  rw [fieldF_eq, packXK_toNat x kk hf]; omega

theorem fieldX_packXK {f : Nat} (x : RegIdx) (kk : Byte) (hf : f ≤ 15) : fieldX (packXK f x kk) = x := by
  have := kk.isLt; have := x.isLt
  apply Fin.ext
  rw [fieldX_val, packXK_toNat x kk hf]; omega

theorem fieldNN_packXK {f : Nat} (x : RegIdx) (kk : Byte) (hf : f ≤ 15) : fieldNN (packXK f x kk) = kk := by
  have := kk.isLt; have := x.isLt
  apply BitVec.eq_of_toNat_eq
  rw [fieldNN_toNat, packXK_toNat x kk hf]; omega

theorem fieldF_packXYN {f n : Nat} (x y : RegIdx) (hf : f ≤ 15) (hn : n ≤ 15) : fieldF (packXYN f x y n) = f := by
  have := x.isLt; have := y.isLt
  rw [fieldF_eq, packXYN_toNat x y hf hn]; omega

theorem fieldX_packXYN {f n : Nat} (x y : RegIdx) (hf : f ≤ 15) (hn : n ≤ 15) : fieldX (packXYN f x y n) = x := by
  have := x.isLt; have := y.isLt
  apply Fin.ext
  rw [fieldX_val, packXYN_toNat x y hf hn]; omega

theorem fieldY_packXYN {f n : Nat} (x y : RegIdx) (hf : f ≤ 15) (hn : n ≤ 15) : fieldY (packXYN f x y n) = y := by
  have := x.isLt; have := y.isLt
  apply Fin.ext
  rw [fieldY_val, packXYN_toNat x y hf hn]; omega

theorem fieldN_packXYN {f n : Nat} (x y : RegIdx) (hf : f ≤ 15) (hn : n ≤ 15) : fieldN (packXYN f x y n) = n := by
  have := x.isLt; have := y.isLt
  rw [fieldN_eq, packXYN_toNat x y hf hn]; omega

/-! ## The decoder, family by family -/

theorem decodeWord_0 {strict : Bool} {op : Word} (h : fieldF op = 0x0) :
    decodeWord strict op = decode0 strict op := by
  unfold decodeWord; rw [h]; rfl

theorem decodeWord_1 {strict : Bool} {op : Word} (h : fieldF op = 0x1) :
    decodeWord strict op = .ok (.jp (fieldNNN op)) := by
  unfold decodeWord; rw [h]; rfl

theorem decodeWord_2 {strict : Bool} {op : Word} (h : fieldF op = 0x2) :
    decodeWord strict op = .ok (.call (fieldNNN op)) := by
  unfold decodeWord; rw [h]; rfl

theorem decodeWord_3 {strict : Bool} {op : Word} (h : fieldF op = 0x3) :
    decodeWord strict op = .ok (.seImm (fieldX op) (fieldNN op)) := by
  unfold decodeWord; rw [h]; rfl

theorem decodeWord_4 {strict : Bool} {op : Word} (h : fieldF op = 0x4) :
    decodeWord strict op = .ok (.sneImm (fieldX op) (fieldNN op)) := by
  unfold decodeWord; rw [h]; rfl

theorem decodeWord_5 {strict : Bool} {op : Word} (h : fieldF op = 0x5) :
    decodeWord strict op = if strict && fieldN op != 0 then .error .family5 else .ok (.seReg (fieldX op) (fieldY op)) := by
  unfold decodeWord; rw [h]; rfl

theorem decodeWord_6 {strict : Bool} {op : Word} (h : fieldF op = 0x6) :
    decodeWord strict op = .ok (.ldImm (fieldX op) (fieldNN op)) := by
  unfold decodeWord; rw [h]; rfl

theorem decodeWord_7 {strict : Bool} {op : Word} (h : fieldF op = 0x7) :
    decodeWord strict op = .ok (.addImm (fieldX op) (fieldNN op)) := by
  unfold decodeWord; rw [h]; rfl

theorem decodeWord_8 {strict : Bool} {op : Word} (h : fieldF op = 0x8) :
    decodeWord strict op = decode8 op := by
  unfold decodeWord; rw [h]; rfl

theorem decodeWord_9 {strict : Bool} {op : Word} (h : fieldF op = 0x9) :
    decodeWord strict op = if strict && fieldN op != 0 then .error .family9 else .ok (.sneReg (fieldX op) (fieldY op)) := by
  unfold decodeWord; rw [h]; rfl

theorem decodeWord_A {strict : Bool} {op : Word} (h : fieldF op = 0xA) :
    decodeWord strict op = .ok (.ldI (fieldNNN op)) := by
  unfold decodeWord; rw [h]; rfl

theorem decodeWord_B {strict : Bool} {op : Word} (h : fieldF op = 0xB) :
    decodeWord strict op = .ok (.jpV0 (fieldNNN op)) := by
  unfold decodeWord; rw [h]; rfl

theorem decodeWord_C {strict : Bool} {op : Word} (h : fieldF op = 0xC) :
    decodeWord strict op = .ok (.rnd (fieldX op) (fieldNN op)) := by
  unfold decodeWord; rw [h]; rfl

theorem decodeWord_D {strict : Bool} {op : Word} (h : fieldF op = 0xD) :
    decodeWord strict op = .ok (.drw (fieldX op) (fieldY op) (fieldN op)) := by
  unfold decodeWord; rw [h]; rfl

theorem decodeWord_E {strict : Bool} {op : Word} (h : fieldF op = 0xE) :
    decodeWord strict op = decodeE op := by
  unfold decodeWord; rw [h]; rfl

theorem decodeWord_F {strict : Bool} {op : Word} (h : fieldF op = 0xF) :
    decodeWord strict op = decodeF op := by
  unfold decodeWord; rw [h]; rfl

/-- The family of a word is one of 16 (30_encoding.md R71), so every word falls under one of the lemmas above. -/
theorem fieldF_le (op : Word) : fieldF op ≤ 15 := by
  have := op.isLt
  rw [fieldF_eq]; omega

/-! ## Byte order -/

/-- A word's two bytes put together again are the word. -/
theorem wordOfBytes_hi_lo (op : Word) : wordOfBytes (hiByte op) (loByte op) = op := by
  apply BitVec.eq_of_toNat_eq
  have := op.isLt
  simp [wordOfBytes, hiByte, loByte, BitVec.extractLsb'_toNat, Nat.shiftRight_eq_div_pow]; omega

theorem wordOfBytes_toNat (hi lo : Byte) : (wordOfBytes hi lo).toNat = hi.toNat * 256 + lo.toNat := by
  have := hi.isLt; have := lo.isLt
  simp only [wordOfBytes, BitVec.toNat_ofNat]; omega

/-! ## The form that the encoder writes -/

@[simp] theorem Instr.canonical_shr (x y : RegIdx) : (Instr.shr x y).canonical = .shr x 0 := rfl
@[simp] theorem Instr.canonical_shl (x y : RegIdx) : (Instr.shl x y).canonical = .shl x 0 := rfl

/-- Every other instruction is written as it is. -/
theorem Instr.canonical_of_ne {i : Instr} (hr : ∀ x y, i ≠ .shr x y) (hl : ∀ x y, i ≠ .shl x y) : i.canonical = i := by
  cases i with
  | shr x y => exact absurd rfl (hr x y)
  | shl x y => exact absurd rfl (hl x y)
  | _ => rfl

@[simp] theorem Instr.canonical_canonical (i : Instr) : i.canonical.canonical = i.canonical := by cases i <;> rfl
@[simp] theorem Instr.wellFormed_canonical (i : Instr) : i.canonical.wellFormed = i.wellFormed := by cases i <;> rfl
@[simp] theorem tableRow_canonical (i : Instr) : tableRow i.canonical = tableRow i := by cases i <;> rfl

end Sys2Proof
end

