-- ==== Sys2Proof/Laws/Memory.lean ====
section
/-! SUPPORT. The laws of memory: a read after a write, and that every memory operation keeps the canonical form. -/

namespace Sys2Proof.Machine

/-- The order part of the canonical form, which is all that reading back needs. -/
abbrev Memory.sorted (m : Memory) : Prop := m.Pairwise (fun c d => c.1 < d.1)

theorem Memory.wf.sorted {m : Memory} (h : m.wf) : m.sorted := h.1

@[simp] theorem Memory.read_nil (a : Nat) : Memory.read [] a = 0 := rfl

/-- An address below every listed one is unlisted. -/
theorem Memory.read_below {m : Memory} {a : Nat} (h : ∀ c ∈ m, a < c.1) : m.read a = Memory.unlisted := by
  cases m with
  | nil => rfl
  | cons c rest => simp [Memory.read, h c (List.mem_cons_self ..)]

/-- Every address a write leaves listed was listed before or is the one written. -/
theorem Memory.mem_write {m : Memory} {a : Nat} {b : Byte} {c : Host.Cell} (h : c ∈ m.write a b) :
    c ∈ m ∨ (c = (a, b) ∧ b ≠ Memory.unlisted) := by
  induction m with
  | nil =>
    by_cases hb : b = Memory.unlisted <;> simp_all [Memory.write]
  | cons d rest ih =>
    obtain ⟨k, e⟩ := d
    by_cases hb : b = Memory.unlisted <;> by_cases h1 : a < k <;> by_cases h2 : a = k <;>
      simp only [Memory.write, hb, h1, h2, if_true, if_false, List.mem_cons] at h ⊢ <;>
      grind

theorem Memory.write_sorted {m : Memory} (a : Nat) (b : Byte) (h : m.sorted) : (m.write a b).sorted := by
  induction m with
  | nil => by_cases hb : b = Memory.unlisted <;> simp [Memory.write, hb]
  | cons d rest ih =>
    obtain ⟨k, e⟩ := d
    rw [Memory.sorted, List.pairwise_cons] at h
    have ih' := ih h.2
    have hmem : ∀ c ∈ Memory.write rest a b, c ∈ rest ∨ c.1 = a := fun c hc =>
      (Memory.mem_write hc).imp id (fun h => by rw [h.1])
    simp only [Memory.write]
    split
    · split
      · exact List.pairwise_cons.2 h
      · refine List.pairwise_cons.2 ⟨?_, List.pairwise_cons.2 h⟩
        intro c hc
        rcases List.mem_cons.1 hc with rfl | hc
        · assumption
        · have := h.1 c hc; simp only at this ⊢; omega
    · split
      · split
        · exact h.2
        · refine List.pairwise_cons.2 ⟨?_, h.2⟩
          intro c hc
          have := h.1 c hc; simp only at this ⊢; omega
      · refine List.pairwise_cons.2 ⟨?_, ih'⟩
        intro c hc
        rcases hmem c hc with hc | hc
        · exact h.1 c hc
        · simp only; omega

/-- A write inside memory keeps the canonical form. -/
theorem Memory.write_wf {m : Memory} {a : Nat} (b : Byte) (h : m.wf) (ha : a < memSize) : (m.write a b).wf := by
  refine ⟨Memory.write_sorted a b h.1, fun c hc => ?_⟩
  rcases Memory.mem_write hc with hc | ⟨rfl, hb⟩
  · exact h.2 c hc
  · exact ⟨hb, ha⟩

/-- A read after a write: the byte written at that address, the byte before at every other. -/
theorem Memory.read_write {m : Memory} (a a' : Nat) (b : Byte) (h : m.sorted) :
    (m.write a b).read a' = if a' = a then b else m.read a' := by
  induction m with
  | nil =>
    by_cases hb : b = Memory.unlisted
    · simp [Memory.write, hb, Memory.unlisted]
    · simp only [Memory.write, hb, Memory.read, if_false]
      grind
  | cons d rest ih =>
    obtain ⟨k, e⟩ := d
    rw [Memory.sorted, List.pairwise_cons] at h
    have below : ∀ q, q ≤ k → Memory.read rest q = Memory.unlisted := fun q hq =>
      Memory.read_below fun c hc => by have := h.1 c hc; simp only at this; omega
    have ih' := ih h.2
    have hk := below k (Nat.le_refl k)
    simp only [Memory.write]
    by_cases h1 : a < k
    · by_cases hb : b = Memory.unlisted
      · simp only [h1, hb, if_true, Memory.read]
        grind
      · simp only [h1, hb, if_true, if_false, Memory.read]
        grind
    · by_cases h2 : a = k
      · subst h2
        by_cases hb : b = Memory.unlisted
        · simp only [h1, hb, if_true, if_false, Memory.read]
          by_cases h3 : a' < a
          · simp [h3, below a' (by omega), Nat.ne_of_lt h3]
          · by_cases h4 : a' = a
            · simp [h4, hk]
            · simp [h3, h4]
        · simp only [h1, hb, if_true, if_false, Memory.read]
          grind
      · simp only [h1, h2, if_false, Memory.read, ih']
        grind

theorem Memory.read_write_same {m : Memory} (a : Nat) (b : Byte) (h : m.sorted) : (m.write a b).read a = b := by
  simp [Memory.read_write a a b h]

theorem Memory.read_write_other {m : Memory} {a a' : Nat} (b : Byte) (h : m.sorted) (hne : a' ≠ a) :
    (m.write a b).read a' = m.read a' := by
  simp [Memory.read_write a a' b h, hne]

theorem Memory.storeBytes_sorted {m : Memory} (a : Nat) (bs : List Byte) (h : m.sorted) :
    (m.storeBytes a bs).sorted := by
  induction bs generalizing m a with
  | nil => exact h
  | cons b bs ih => exact ih (a + 1) (Memory.write_sorted a b h)

/-- A block written inside memory keeps the canonical form. -/
theorem Memory.storeBytes_wf {m : Memory} {a : Nat} {bs : List Byte} (h : m.wf) (ha : a + bs.length ≤ memSize) :
    (m.storeBytes a bs).wf := by
  induction bs generalizing m a with
  | nil => exact h
  | cons b bs ih =>
    simp only [List.length_cons] at ha
    exact ih (Memory.write_wf b h (by omega)) (by omega)

/-- Outside a written block every byte reads as before. -/
theorem Memory.read_storeBytes_outside {m : Memory} {a q : Nat} {bs : List Byte} (h : m.sorted)
    (hq : q < a ∨ a + bs.length ≤ q) : (m.storeBytes a bs).read q = m.read q := by
  induction bs generalizing m a with
  | nil => rfl
  | cons b bs ih =>
    simp only [List.length_cons] at hq
    rw [Memory.storeBytes, ih (Memory.write_sorted a b h) (by omega), Memory.read_write_other b h (by omega)]

/-- Inside a written block the byte at its place is read back. -/
theorem Memory.read_storeBytes_inside {m : Memory} {a k : Nat} {bs : List Byte} (h : m.sorted) (hk : k < bs.length) :
    (m.storeBytes a bs).read (a + k) = bs[k] := by
  induction bs generalizing m a k with
  | nil => simp at hk
  | cons b bs ih =>
    rw [Memory.storeBytes]
    cases k with
    | zero =>
      rw [Memory.read_storeBytes_outside (Memory.write_sorted a b h) (by omega)]
      simpa using Memory.read_write_same a b h
    | succ k =>
      have := ih (m := m.write a b) (a := a + 1) (k := k) (Memory.write_sorted a b h) (by simpa using hk)
      simpa [Nat.add_assoc, Nat.add_comm 1 k] using this

/-- The form holds of the empty list, the memory after reset(). -/
theorem Memory.wf_nil : Memory.wf [] := ⟨List.Pairwise.nil, fun _ h => by simp at h⟩

end Sys2Proof.Machine
end

