-- ==== Sys2Proof/Laws/State.lean ====
section
/-! SUPPORT. One lemma for each field of State under each named update, true by rfl, and the reads of registers and
stack entries under the updates. -/

namespace Sys2Proof.Machine

variable (s : State)

/-! ## setReg -/

@[simp] theorem State.setReg_cfg (r : RegIdx) (b : Byte) : (s.setReg r b).cfg = s.cfg := rfl
@[simp] theorem State.setReg_mem (r : RegIdx) (b : Byte) : (s.setReg r b).mem = s.mem := rfl
@[simp] theorem State.setReg_v (r : RegIdx) (b : Byte) : (s.setReg r b).v = s.v.set r.val b r.isLt := rfl
@[simp] theorem State.setReg_i (r : RegIdx) (b : Byte) : (s.setReg r b).i = s.i := rfl
@[simp] theorem State.setReg_ip (r : RegIdx) (b : Byte) : (s.setReg r b).ip = s.ip := rfl
@[simp] theorem State.setReg_stack (r : RegIdx) (b : Byte) : (s.setReg r b).stack = s.stack := rfl
@[simp] theorem State.setReg_sp (r : RegIdx) (b : Byte) : (s.setReg r b).sp = s.sp := rfl
@[simp] theorem State.setReg_dt (r : RegIdx) (b : Byte) : (s.setReg r b).dt = s.dt := rfl
@[simp] theorem State.setReg_st (r : RegIdx) (b : Byte) : (s.setReg r b).st = s.st := rfl
@[simp] theorem State.setReg_fb (r : RegIdx) (b : Byte) : (s.setReg r b).fb = s.fb := rfl
@[simp] theorem State.setReg_keys (r : RegIdx) (b : Byte) : (s.setReg r b).keys = s.keys := rfl
@[simp] theorem State.setReg_awaiting (r : RegIdx) (b : Byte) : (s.setReg r b).awaiting = s.awaiting := rfl
@[simp] theorem State.setReg_halt (r : RegIdx) (b : Byte) : (s.setReg r b).halt = s.halt := rfl
@[simp] theorem State.setReg_draws (r : RegIdx) (b : Byte) : (s.setReg r b).draws = s.draws := rfl
@[simp] theorem State.setReg_stackEntry (r : RegIdx) (b : Byte) (n : Nat) : (s.setReg r b).stackEntry n = s.stackEntry n := rfl

/-! ## setI -/

@[simp] theorem State.setI_cfg (a : Word) : (s.setI a).cfg = s.cfg := rfl
@[simp] theorem State.setI_mem (a : Word) : (s.setI a).mem = s.mem := rfl
@[simp] theorem State.setI_v (a : Word) : (s.setI a).v = s.v := rfl
@[simp] theorem State.setI_i (a : Word) : (s.setI a).i = a := rfl
@[simp] theorem State.setI_ip (a : Word) : (s.setI a).ip = s.ip := rfl
@[simp] theorem State.setI_stack (a : Word) : (s.setI a).stack = s.stack := rfl
@[simp] theorem State.setI_sp (a : Word) : (s.setI a).sp = s.sp := rfl
@[simp] theorem State.setI_dt (a : Word) : (s.setI a).dt = s.dt := rfl
@[simp] theorem State.setI_st (a : Word) : (s.setI a).st = s.st := rfl
@[simp] theorem State.setI_fb (a : Word) : (s.setI a).fb = s.fb := rfl
@[simp] theorem State.setI_keys (a : Word) : (s.setI a).keys = s.keys := rfl
@[simp] theorem State.setI_awaiting (a : Word) : (s.setI a).awaiting = s.awaiting := rfl
@[simp] theorem State.setI_halt (a : Word) : (s.setI a).halt = s.halt := rfl
@[simp] theorem State.setI_draws (a : Word) : (s.setI a).draws = s.draws := rfl
@[simp] theorem State.setI_reg (a : Word) (q : RegIdx) : (s.setI a).reg q = s.reg q := rfl
@[simp] theorem State.setI_stackEntry (a : Word) (n : Nat) : (s.setI a).stackEntry n = s.stackEntry n := rfl

/-! ## setIp -/

@[simp] theorem State.setIp_cfg (a : Word) : (s.setIp a).cfg = s.cfg := rfl
@[simp] theorem State.setIp_mem (a : Word) : (s.setIp a).mem = s.mem := rfl
@[simp] theorem State.setIp_v (a : Word) : (s.setIp a).v = s.v := rfl
@[simp] theorem State.setIp_i (a : Word) : (s.setIp a).i = s.i := rfl
@[simp] theorem State.setIp_ip (a : Word) : (s.setIp a).ip = a := rfl
@[simp] theorem State.setIp_stack (a : Word) : (s.setIp a).stack = s.stack := rfl
@[simp] theorem State.setIp_sp (a : Word) : (s.setIp a).sp = s.sp := rfl
@[simp] theorem State.setIp_dt (a : Word) : (s.setIp a).dt = s.dt := rfl
@[simp] theorem State.setIp_st (a : Word) : (s.setIp a).st = s.st := rfl
@[simp] theorem State.setIp_fb (a : Word) : (s.setIp a).fb = s.fb := rfl
@[simp] theorem State.setIp_keys (a : Word) : (s.setIp a).keys = s.keys := rfl
@[simp] theorem State.setIp_awaiting (a : Word) : (s.setIp a).awaiting = s.awaiting := rfl
@[simp] theorem State.setIp_halt (a : Word) : (s.setIp a).halt = s.halt := rfl
@[simp] theorem State.setIp_draws (a : Word) : (s.setIp a).draws = s.draws := rfl
@[simp] theorem State.setIp_reg (a : Word) (q : RegIdx) : (s.setIp a).reg q = s.reg q := rfl
@[simp] theorem State.setIp_stackEntry (a : Word) (n : Nat) : (s.setIp a).stackEntry n = s.stackEntry n := rfl

/-! ## advance -/

@[simp] theorem State.advance_cfg : (s.advance).cfg = s.cfg := rfl
@[simp] theorem State.advance_mem : (s.advance).mem = s.mem := rfl
@[simp] theorem State.advance_v : (s.advance).v = s.v := rfl
@[simp] theorem State.advance_i : (s.advance).i = s.i := rfl
@[simp] theorem State.advance_ip : (s.advance).ip = s.ip + 2 := rfl
@[simp] theorem State.advance_stack : (s.advance).stack = s.stack := rfl
@[simp] theorem State.advance_sp : (s.advance).sp = s.sp := rfl
@[simp] theorem State.advance_dt : (s.advance).dt = s.dt := rfl
@[simp] theorem State.advance_st : (s.advance).st = s.st := rfl
@[simp] theorem State.advance_fb : (s.advance).fb = s.fb := rfl
@[simp] theorem State.advance_keys : (s.advance).keys = s.keys := rfl
@[simp] theorem State.advance_awaiting : (s.advance).awaiting = s.awaiting := rfl
@[simp] theorem State.advance_halt : (s.advance).halt = s.halt := rfl
@[simp] theorem State.advance_draws : (s.advance).draws = s.draws := rfl
@[simp] theorem State.advance_reg (q : RegIdx) : (s.advance).reg q = s.reg q := rfl
@[simp] theorem State.advance_stackEntry (n : Nat) : (s.advance).stackEntry n = s.stackEntry n := rfl

/-! ## skipIf -/

@[simp] theorem State.skipIf_cfg (c : Bool) : (s.skipIf c).cfg = s.cfg := rfl
@[simp] theorem State.skipIf_mem (c : Bool) : (s.skipIf c).mem = s.mem := rfl
@[simp] theorem State.skipIf_v (c : Bool) : (s.skipIf c).v = s.v := rfl
@[simp] theorem State.skipIf_i (c : Bool) : (s.skipIf c).i = s.i := rfl
@[simp] theorem State.skipIf_ip (c : Bool) : (s.skipIf c).ip = if c then s.ip + 4 else s.ip + 2 := rfl
@[simp] theorem State.skipIf_stack (c : Bool) : (s.skipIf c).stack = s.stack := rfl
@[simp] theorem State.skipIf_sp (c : Bool) : (s.skipIf c).sp = s.sp := rfl
@[simp] theorem State.skipIf_dt (c : Bool) : (s.skipIf c).dt = s.dt := rfl
@[simp] theorem State.skipIf_st (c : Bool) : (s.skipIf c).st = s.st := rfl
@[simp] theorem State.skipIf_fb (c : Bool) : (s.skipIf c).fb = s.fb := rfl
@[simp] theorem State.skipIf_keys (c : Bool) : (s.skipIf c).keys = s.keys := rfl
@[simp] theorem State.skipIf_awaiting (c : Bool) : (s.skipIf c).awaiting = s.awaiting := rfl
@[simp] theorem State.skipIf_halt (c : Bool) : (s.skipIf c).halt = s.halt := rfl
@[simp] theorem State.skipIf_draws (c : Bool) : (s.skipIf c).draws = s.draws := rfl
@[simp] theorem State.skipIf_reg (c : Bool) (q : RegIdx) : (s.skipIf c).reg q = s.reg q := rfl
@[simp] theorem State.skipIf_stackEntry (c : Bool) (n : Nat) : (s.skipIf c).stackEntry n = s.stackEntry n := rfl

/-! ## setDt -/

@[simp] theorem State.setDt_cfg (b : Byte) : (s.setDt b).cfg = s.cfg := rfl
@[simp] theorem State.setDt_mem (b : Byte) : (s.setDt b).mem = s.mem := rfl
@[simp] theorem State.setDt_v (b : Byte) : (s.setDt b).v = s.v := rfl
@[simp] theorem State.setDt_i (b : Byte) : (s.setDt b).i = s.i := rfl
@[simp] theorem State.setDt_ip (b : Byte) : (s.setDt b).ip = s.ip := rfl
@[simp] theorem State.setDt_stack (b : Byte) : (s.setDt b).stack = s.stack := rfl
@[simp] theorem State.setDt_sp (b : Byte) : (s.setDt b).sp = s.sp := rfl
@[simp] theorem State.setDt_dt (b : Byte) : (s.setDt b).dt = b := rfl
@[simp] theorem State.setDt_st (b : Byte) : (s.setDt b).st = s.st := rfl
@[simp] theorem State.setDt_fb (b : Byte) : (s.setDt b).fb = s.fb := rfl
@[simp] theorem State.setDt_keys (b : Byte) : (s.setDt b).keys = s.keys := rfl
@[simp] theorem State.setDt_awaiting (b : Byte) : (s.setDt b).awaiting = s.awaiting := rfl
@[simp] theorem State.setDt_halt (b : Byte) : (s.setDt b).halt = s.halt := rfl
@[simp] theorem State.setDt_draws (b : Byte) : (s.setDt b).draws = s.draws := rfl
@[simp] theorem State.setDt_reg (b : Byte) (q : RegIdx) : (s.setDt b).reg q = s.reg q := rfl
@[simp] theorem State.setDt_stackEntry (b : Byte) (n : Nat) : (s.setDt b).stackEntry n = s.stackEntry n := rfl

/-! ## setSt -/

@[simp] theorem State.setSt_cfg (b : Byte) : (s.setSt b).cfg = s.cfg := rfl
@[simp] theorem State.setSt_mem (b : Byte) : (s.setSt b).mem = s.mem := rfl
@[simp] theorem State.setSt_v (b : Byte) : (s.setSt b).v = s.v := rfl
@[simp] theorem State.setSt_i (b : Byte) : (s.setSt b).i = s.i := rfl
@[simp] theorem State.setSt_ip (b : Byte) : (s.setSt b).ip = s.ip := rfl
@[simp] theorem State.setSt_stack (b : Byte) : (s.setSt b).stack = s.stack := rfl
@[simp] theorem State.setSt_sp (b : Byte) : (s.setSt b).sp = s.sp := rfl
@[simp] theorem State.setSt_dt (b : Byte) : (s.setSt b).dt = s.dt := rfl
@[simp] theorem State.setSt_st (b : Byte) : (s.setSt b).st = b := rfl
@[simp] theorem State.setSt_fb (b : Byte) : (s.setSt b).fb = s.fb := rfl
@[simp] theorem State.setSt_keys (b : Byte) : (s.setSt b).keys = s.keys := rfl
@[simp] theorem State.setSt_awaiting (b : Byte) : (s.setSt b).awaiting = s.awaiting := rfl
@[simp] theorem State.setSt_halt (b : Byte) : (s.setSt b).halt = s.halt := rfl
@[simp] theorem State.setSt_draws (b : Byte) : (s.setSt b).draws = s.draws := rfl
@[simp] theorem State.setSt_reg (b : Byte) (q : RegIdx) : (s.setSt b).reg q = s.reg q := rfl
@[simp] theorem State.setSt_stackEntry (b : Byte) (n : Nat) : (s.setSt b).stackEntry n = s.stackEntry n := rfl

/-! ## setFb -/

@[simp] theorem State.setFb_cfg (f : Framebuffer) : (s.setFb f).cfg = s.cfg := rfl
@[simp] theorem State.setFb_mem (f : Framebuffer) : (s.setFb f).mem = s.mem := rfl
@[simp] theorem State.setFb_v (f : Framebuffer) : (s.setFb f).v = s.v := rfl
@[simp] theorem State.setFb_i (f : Framebuffer) : (s.setFb f).i = s.i := rfl
@[simp] theorem State.setFb_ip (f : Framebuffer) : (s.setFb f).ip = s.ip := rfl
@[simp] theorem State.setFb_stack (f : Framebuffer) : (s.setFb f).stack = s.stack := rfl
@[simp] theorem State.setFb_sp (f : Framebuffer) : (s.setFb f).sp = s.sp := rfl
@[simp] theorem State.setFb_dt (f : Framebuffer) : (s.setFb f).dt = s.dt := rfl
@[simp] theorem State.setFb_st (f : Framebuffer) : (s.setFb f).st = s.st := rfl
@[simp] theorem State.setFb_fb (f : Framebuffer) : (s.setFb f).fb = f := rfl
@[simp] theorem State.setFb_keys (f : Framebuffer) : (s.setFb f).keys = s.keys := rfl
@[simp] theorem State.setFb_awaiting (f : Framebuffer) : (s.setFb f).awaiting = s.awaiting := rfl
@[simp] theorem State.setFb_halt (f : Framebuffer) : (s.setFb f).halt = s.halt := rfl
@[simp] theorem State.setFb_draws (f : Framebuffer) : (s.setFb f).draws = s.draws := rfl
@[simp] theorem State.setFb_reg (f : Framebuffer) (q : RegIdx) : (s.setFb f).reg q = s.reg q := rfl
@[simp] theorem State.setFb_stackEntry (f : Framebuffer) (n : Nat) : (s.setFb f).stackEntry n = s.stackEntry n := rfl

/-! ## setKey -/

@[simp] theorem State.setKey_cfg (k : RegIdx) (p : Bool) : (s.setKey k p).cfg = s.cfg := rfl
@[simp] theorem State.setKey_mem (k : RegIdx) (p : Bool) : (s.setKey k p).mem = s.mem := rfl
@[simp] theorem State.setKey_v (k : RegIdx) (p : Bool) : (s.setKey k p).v = s.v := rfl
@[simp] theorem State.setKey_i (k : RegIdx) (p : Bool) : (s.setKey k p).i = s.i := rfl
@[simp] theorem State.setKey_ip (k : RegIdx) (p : Bool) : (s.setKey k p).ip = s.ip := rfl
@[simp] theorem State.setKey_stack (k : RegIdx) (p : Bool) : (s.setKey k p).stack = s.stack := rfl
@[simp] theorem State.setKey_sp (k : RegIdx) (p : Bool) : (s.setKey k p).sp = s.sp := rfl
@[simp] theorem State.setKey_dt (k : RegIdx) (p : Bool) : (s.setKey k p).dt = s.dt := rfl
@[simp] theorem State.setKey_st (k : RegIdx) (p : Bool) : (s.setKey k p).st = s.st := rfl
@[simp] theorem State.setKey_fb (k : RegIdx) (p : Bool) : (s.setKey k p).fb = s.fb := rfl
@[simp] theorem State.setKey_keys (k : RegIdx) (p : Bool) : (s.setKey k p).keys = s.keys.set k.val p k.isLt := rfl
@[simp] theorem State.setKey_awaiting (k : RegIdx) (p : Bool) : (s.setKey k p).awaiting = s.awaiting := rfl
@[simp] theorem State.setKey_halt (k : RegIdx) (p : Bool) : (s.setKey k p).halt = s.halt := rfl
@[simp] theorem State.setKey_draws (k : RegIdx) (p : Bool) : (s.setKey k p).draws = s.draws := rfl
@[simp] theorem State.setKey_reg (k : RegIdx) (p : Bool) (q : RegIdx) : (s.setKey k p).reg q = s.reg q := rfl
@[simp] theorem State.setKey_stackEntry (k : RegIdx) (p : Bool) (n : Nat) : (s.setKey k p).stackEntry n = s.stackEntry n := rfl

/-! ## setAwaiting -/

@[simp] theorem State.setAwaiting_cfg (a : Option RegIdx) : (s.setAwaiting a).cfg = s.cfg := rfl
@[simp] theorem State.setAwaiting_mem (a : Option RegIdx) : (s.setAwaiting a).mem = s.mem := rfl
@[simp] theorem State.setAwaiting_v (a : Option RegIdx) : (s.setAwaiting a).v = s.v := rfl
@[simp] theorem State.setAwaiting_i (a : Option RegIdx) : (s.setAwaiting a).i = s.i := rfl
@[simp] theorem State.setAwaiting_ip (a : Option RegIdx) : (s.setAwaiting a).ip = s.ip := rfl
@[simp] theorem State.setAwaiting_stack (a : Option RegIdx) : (s.setAwaiting a).stack = s.stack := rfl
@[simp] theorem State.setAwaiting_sp (a : Option RegIdx) : (s.setAwaiting a).sp = s.sp := rfl
@[simp] theorem State.setAwaiting_dt (a : Option RegIdx) : (s.setAwaiting a).dt = s.dt := rfl
@[simp] theorem State.setAwaiting_st (a : Option RegIdx) : (s.setAwaiting a).st = s.st := rfl
@[simp] theorem State.setAwaiting_fb (a : Option RegIdx) : (s.setAwaiting a).fb = s.fb := rfl
@[simp] theorem State.setAwaiting_keys (a : Option RegIdx) : (s.setAwaiting a).keys = s.keys := rfl
@[simp] theorem State.setAwaiting_awaiting (a : Option RegIdx) : (s.setAwaiting a).awaiting = a := rfl
@[simp] theorem State.setAwaiting_halt (a : Option RegIdx) : (s.setAwaiting a).halt = s.halt := rfl
@[simp] theorem State.setAwaiting_draws (a : Option RegIdx) : (s.setAwaiting a).draws = s.draws := rfl
@[simp] theorem State.setAwaiting_reg (a : Option RegIdx) (q : RegIdx) : (s.setAwaiting a).reg q = s.reg q := rfl
@[simp] theorem State.setAwaiting_stackEntry (a : Option RegIdx) (n : Nat) : (s.setAwaiting a).stackEntry n = s.stackEntry n := rfl

/-! ## setMem -/

@[simp] theorem State.setMem_cfg (m : Memory) : (s.setMem m).cfg = s.cfg := rfl
@[simp] theorem State.setMem_mem (m : Memory) : (s.setMem m).mem = m := rfl
@[simp] theorem State.setMem_v (m : Memory) : (s.setMem m).v = s.v := rfl
@[simp] theorem State.setMem_i (m : Memory) : (s.setMem m).i = s.i := rfl
@[simp] theorem State.setMem_ip (m : Memory) : (s.setMem m).ip = s.ip := rfl
@[simp] theorem State.setMem_stack (m : Memory) : (s.setMem m).stack = s.stack := rfl
@[simp] theorem State.setMem_sp (m : Memory) : (s.setMem m).sp = s.sp := rfl
@[simp] theorem State.setMem_dt (m : Memory) : (s.setMem m).dt = s.dt := rfl
@[simp] theorem State.setMem_st (m : Memory) : (s.setMem m).st = s.st := rfl
@[simp] theorem State.setMem_fb (m : Memory) : (s.setMem m).fb = s.fb := rfl
@[simp] theorem State.setMem_keys (m : Memory) : (s.setMem m).keys = s.keys := rfl
@[simp] theorem State.setMem_awaiting (m : Memory) : (s.setMem m).awaiting = s.awaiting := rfl
@[simp] theorem State.setMem_halt (m : Memory) : (s.setMem m).halt = s.halt := rfl
@[simp] theorem State.setMem_draws (m : Memory) : (s.setMem m).draws = s.draws := rfl
@[simp] theorem State.setMem_reg (m : Memory) (q : RegIdx) : (s.setMem m).reg q = s.reg q := rfl
@[simp] theorem State.setMem_stackEntry (m : Memory) (n : Nat) : (s.setMem m).stackEntry n = s.stackEntry n := rfl

/-! ## setHalt -/

@[simp] theorem State.setHalt_cfg (h : Option Error) : (s.setHalt h).cfg = s.cfg := rfl
@[simp] theorem State.setHalt_mem (h : Option Error) : (s.setHalt h).mem = s.mem := rfl
@[simp] theorem State.setHalt_v (h : Option Error) : (s.setHalt h).v = s.v := rfl
@[simp] theorem State.setHalt_i (h : Option Error) : (s.setHalt h).i = s.i := rfl
@[simp] theorem State.setHalt_ip (h : Option Error) : (s.setHalt h).ip = s.ip := rfl
@[simp] theorem State.setHalt_stack (h : Option Error) : (s.setHalt h).stack = s.stack := rfl
@[simp] theorem State.setHalt_sp (h : Option Error) : (s.setHalt h).sp = s.sp := rfl
@[simp] theorem State.setHalt_dt (h : Option Error) : (s.setHalt h).dt = s.dt := rfl
@[simp] theorem State.setHalt_st (h : Option Error) : (s.setHalt h).st = s.st := rfl
@[simp] theorem State.setHalt_fb (h : Option Error) : (s.setHalt h).fb = s.fb := rfl
@[simp] theorem State.setHalt_keys (h : Option Error) : (s.setHalt h).keys = s.keys := rfl
@[simp] theorem State.setHalt_awaiting (h : Option Error) : (s.setHalt h).awaiting = s.awaiting := rfl
@[simp] theorem State.setHalt_halt (h : Option Error) : (s.setHalt h).halt = h := rfl
@[simp] theorem State.setHalt_draws (h : Option Error) : (s.setHalt h).draws = s.draws := rfl
@[simp] theorem State.setHalt_reg (h : Option Error) (q : RegIdx) : (s.setHalt h).reg q = s.reg q := rfl
@[simp] theorem State.setHalt_stackEntry (h : Option Error) (n : Nat) : (s.setHalt h).stackEntry n = s.stackEntry n := rfl

/-! ## nextDraw -/

@[simp] theorem State.nextDraw_cfg : (s.nextDraw).cfg = s.cfg := rfl
@[simp] theorem State.nextDraw_mem : (s.nextDraw).mem = s.mem := rfl
@[simp] theorem State.nextDraw_v : (s.nextDraw).v = s.v := rfl
@[simp] theorem State.nextDraw_i : (s.nextDraw).i = s.i := rfl
@[simp] theorem State.nextDraw_ip : (s.nextDraw).ip = s.ip := rfl
@[simp] theorem State.nextDraw_stack : (s.nextDraw).stack = s.stack := rfl
@[simp] theorem State.nextDraw_sp : (s.nextDraw).sp = s.sp := rfl
@[simp] theorem State.nextDraw_dt : (s.nextDraw).dt = s.dt := rfl
@[simp] theorem State.nextDraw_st : (s.nextDraw).st = s.st := rfl
@[simp] theorem State.nextDraw_fb : (s.nextDraw).fb = s.fb := rfl
@[simp] theorem State.nextDraw_keys : (s.nextDraw).keys = s.keys := rfl
@[simp] theorem State.nextDraw_awaiting : (s.nextDraw).awaiting = s.awaiting := rfl
@[simp] theorem State.nextDraw_halt : (s.nextDraw).halt = s.halt := rfl
@[simp] theorem State.nextDraw_draws : (s.nextDraw).draws = s.draws + 1 := rfl
@[simp] theorem State.nextDraw_reg (q : RegIdx) : (s.nextDraw).reg q = s.reg q := rfl
@[simp] theorem State.nextDraw_stackEntry (n : Nat) : (s.nextDraw).stackEntry n = s.stackEntry n := rfl

/-! ## push -/

@[simp] theorem State.push_cfg (w : Word) : (s.push w).cfg = s.cfg := rfl
@[simp] theorem State.push_mem (w : Word) : (s.push w).mem = s.mem := rfl
@[simp] theorem State.push_v (w : Word) : (s.push w).v = s.v := rfl
@[simp] theorem State.push_i (w : Word) : (s.push w).i = s.i := rfl
@[simp] theorem State.push_ip (w : Word) : (s.push w).ip = s.ip := rfl
@[simp] theorem State.push_stack (w : Word) : (s.push w).stack = s.stack.set s.sp w := rfl
@[simp] theorem State.push_sp (w : Word) : (s.push w).sp = s.sp + 1 := rfl
@[simp] theorem State.push_dt (w : Word) : (s.push w).dt = s.dt := rfl
@[simp] theorem State.push_st (w : Word) : (s.push w).st = s.st := rfl
@[simp] theorem State.push_fb (w : Word) : (s.push w).fb = s.fb := rfl
@[simp] theorem State.push_keys (w : Word) : (s.push w).keys = s.keys := rfl
@[simp] theorem State.push_awaiting (w : Word) : (s.push w).awaiting = s.awaiting := rfl
@[simp] theorem State.push_halt (w : Word) : (s.push w).halt = s.halt := rfl
@[simp] theorem State.push_draws (w : Word) : (s.push w).draws = s.draws := rfl
@[simp] theorem State.push_reg (w : Word) (q : RegIdx) : (s.push w).reg q = s.reg q := rfl

/-! ## pop -/

@[simp] theorem State.pop_cfg : (s.pop).cfg = s.cfg := rfl
@[simp] theorem State.pop_mem : (s.pop).mem = s.mem := rfl
@[simp] theorem State.pop_v : (s.pop).v = s.v := rfl
@[simp] theorem State.pop_i : (s.pop).i = s.i := rfl
@[simp] theorem State.pop_ip : (s.pop).ip = s.ip := rfl
@[simp] theorem State.pop_stack : (s.pop).stack = s.stack := rfl
@[simp] theorem State.pop_sp : (s.pop).sp = s.sp - 1 := rfl
@[simp] theorem State.pop_dt : (s.pop).dt = s.dt := rfl
@[simp] theorem State.pop_st : (s.pop).st = s.st := rfl
@[simp] theorem State.pop_fb : (s.pop).fb = s.fb := rfl
@[simp] theorem State.pop_keys : (s.pop).keys = s.keys := rfl
@[simp] theorem State.pop_awaiting : (s.pop).awaiting = s.awaiting := rfl
@[simp] theorem State.pop_halt : (s.pop).halt = s.halt := rfl
@[simp] theorem State.pop_draws : (s.pop).draws = s.draws := rfl
@[simp] theorem State.pop_reg (q : RegIdx) : (s.pop).reg q = s.reg q := rfl
@[simp] theorem State.pop_stackEntry (n : Nat) : (s.pop).stackEntry n = s.stackEntry n := rfl

/-! ## Registers -/

theorem State.setReg_reg (r q : RegIdx) (b : Byte) : (s.setReg r b).reg q = if q = r then b else s.reg q := by
  by_cases h : q = r
  · subst h; simp [State.setReg, State.reg, Vector.get_eq_getElem]
  · have : r.val ≠ q.val := fun e => h (Fin.ext e.symm)
    simp [State.setReg, State.reg, Vector.get_eq_getElem, h, this]

@[simp] theorem State.setReg_reg_same (r : RegIdx) (b : Byte) : (s.setReg r b).reg r = b := by
  simp [State.setReg_reg]

theorem State.setReg_reg_other {r q : RegIdx} (b : Byte) (h : q ≠ r) : (s.setReg r b).reg q = s.reg q := by
  simp [State.setReg_reg, h]

/-- Two writes to different registers commute. -/
theorem State.setReg_comm {r q : RegIdx} (a b : Byte) (h : r ≠ q) :
    (s.setReg r a).setReg q b = (s.setReg q b).setReg r a := by
  have : r.val ≠ q.val := fun e => h (Fin.ext e)
  simp [State.setReg, Vector.set_comm _ _ this]

/-! ## Stack -/

@[simp] theorem State.push_stackEntry_top (w : Word) (h : s.sp < s.stack.length) :
    (s.push w).stackEntry s.sp = w := by
  simp [State.push, State.stackEntry, List.getD_eq_getElem?_getD, h]

theorem State.push_stackEntry_other (w : Word) {k : Nat} (h : k ≠ s.sp) :
    (s.push w).stackEntry k = s.stackEntry k := by
  simp [State.push, State.stackEntry, List.getD_eq_getElem?_getD, Ne.symm h]

/-! ## Keys -/

theorem State.setKey_get (k j : RegIdx) (p : Bool) :
    (s.setKey k p).keys.get j = if j = k then p else s.keys.get j := by
  by_cases h : j = k
  · subst h; simp [State.setKey, Vector.get_eq_getElem]
  · have : k.val ≠ j.val := fun e => h (Fin.ext e.symm)
    simp [State.setKey, Vector.get_eq_getElem, h, this]

end Sys2Proof.Machine
end

