-- ==== Sys2Proof/Laws/Ops.lean ====
section
/-! SUPPORT. One lemma for each shared operation, saying what it can do. -/

namespace Sys2Proof.Machine

/-! ## Checks -/

theorem mem_accessRange {base n a : Nat} : a ∈ accessRange base n ↔ base ≤ a ∧ a < base + n := by
  simp only [accessRange, List.mem_map, List.mem_range]
  constructor
  · rintro ⟨k, hk, rfl⟩; omega
  · intro h; exact ⟨a - base, by omega, by omega⟩

/-- No check fails exactly when each address passes. -/
theorem firstFailure_none {check : Nat → Option Error} {addrs : List Nat} :
    firstFailure check addrs = none ↔ ∀ a ∈ addrs, check a = none := by
  simp [firstFailure, List.findSome?_eq_none_iff]

/-- The first failure over an ascending range is that of its lowest failing address. -/
theorem firstFailure_lowest {check : Nat → Option Error} {base n a : Nat} {e : Error} (ha : a ∈ accessRange base n)
    (he : check a = some e) (hlow : ∀ b ∈ accessRange base n, b < a → check b = none) :
    firstFailure check (accessRange base n) = some e := by
  have hr := mem_accessRange.1 ha
  have hsplit : accessRange base n = accessRange base (a - base) ++ accessRange a (n - (a - base)) := by
    have hn : n = (a - base) + (n - (a - base)) := by omega
    conv_lhs => rw [accessRange, hn, List.range_add, List.map_append, List.map_map]
    simp only [accessRange]
    congr 1
    apply List.map_congr_left
    intro k _
    simp only [Function.comp]; omega
  have hcons : accessRange a (n - (a - base)) = a :: (accessRange a (n - (a - base))).tail := by
    obtain ⟨m, hm⟩ : ∃ m, n - (a - base) = m + 1 := ⟨n - (a - base) - 1, by omega⟩
    rw [hm, accessRange, List.range_succ_eq_map]; simp
  have hnone : firstFailure check (accessRange base (a - base)) = none := by
    rw [firstFailure_none]
    intro b hb
    have hb' := mem_accessRange.1 hb
    exact hlow b (mem_accessRange.2 ⟨hb'.1, by omega⟩) (by omega)
  rw [hsplit]
  rw [firstFailure] at hnone ⊢
  rw [List.findSome?_append, hnone, hcons, List.findSome?_cons, he]
  rfl

theorem checkRead_none {ip : Word} {a : Nat} : checkRead ip a = none ↔ a ≤ 0xFFF := by
  by_cases h : memSize ≤ a <;> simp only [checkRead, h, if_true, if_false] <;> simp only [memSize] at h <;> simp <;> omega

theorem checkWrite_none {ip : Word} {a : Nat} : checkWrite ip a = none ↔ 0x050 ≤ a ∧ a ≤ 0xFFF := by
  by_cases h : memSize ≤ a <;> by_cases h' : a < fontEnd <;> simp only [checkWrite, h, h', if_true, if_false] <;>
    simp only [memSize, fontEnd] at h h' <;> simp <;> omega

/-- An instruction with checks answers a next state: the HALT record alone when a check fails, its whole effect
when none does. -/
theorem afterChecks_next {failure : Option Error} {s t u : State} (h : afterChecks failure s t = .next u) :
    (∃ e, failure = some e ∧ u = s.setHalt (some e)) ∨ (failure = none ∧ u = t) := by
  cases failure with
  | some e => exact .inl ⟨e, rfl, by simpa [afterChecks, raise] using h.symm⟩
  | none => exact .inr ⟨rfl, by simpa [afterChecks] using h.symm⟩

@[simp] theorem afterChecks_none {s t : State} : afterChecks none s t = .next t := rfl
@[simp] theorem afterChecks_some {e : Error} {s t : State} :
    afterChecks (some e) s t = .next (s.setHalt (some e)) := rfl

/-! ## The flag write -/

/-- What a flagged write leaves in every register. -/
theorem writeWithFlag_reg (x r : RegIdx) (result flag : Byte) (s : State) :
    (writeWithFlag x result flag s).reg r =
      if r = x ∧ (x ≠ VF ∨ s.cfg.vfOrder = .resultLast) then result
      else if r = VF then flag else s.reg r := by
  unfold writeWithFlag
  cases s.cfg.vfOrder <;> simp only [State.setReg_reg] <;> grind

/-- A flagged write writes registers only. -/
theorem writeWithFlag_other (x : RegIdx) (result flag : Byte) (s : State) :
    writeWithFlag x result flag s = { s with v := (writeWithFlag x result flag s).v } := by
  unfold writeWithFlag
  cases s.cfg.vfOrder <;> rfl

section
variable (x : RegIdx) (result flag : Byte) (s : State)
@[simp] theorem writeWithFlag_cfg : (writeWithFlag x result flag s).cfg = s.cfg := by rw [writeWithFlag_other]
@[simp] theorem writeWithFlag_mem : (writeWithFlag x result flag s).mem = s.mem := by rw [writeWithFlag_other]
@[simp] theorem writeWithFlag_i : (writeWithFlag x result flag s).i = s.i := by rw [writeWithFlag_other]
@[simp] theorem writeWithFlag_ip : (writeWithFlag x result flag s).ip = s.ip := by rw [writeWithFlag_other]
@[simp] theorem writeWithFlag_stack : (writeWithFlag x result flag s).stack = s.stack := by rw [writeWithFlag_other]
@[simp] theorem writeWithFlag_sp : (writeWithFlag x result flag s).sp = s.sp := by rw [writeWithFlag_other]
@[simp] theorem writeWithFlag_dt : (writeWithFlag x result flag s).dt = s.dt := by rw [writeWithFlag_other]
@[simp] theorem writeWithFlag_st : (writeWithFlag x result flag s).st = s.st := by rw [writeWithFlag_other]
@[simp] theorem writeWithFlag_fb : (writeWithFlag x result flag s).fb = s.fb := by rw [writeWithFlag_other]
@[simp] theorem writeWithFlag_keys : (writeWithFlag x result flag s).keys = s.keys := by rw [writeWithFlag_other]
@[simp] theorem writeWithFlag_awaiting : (writeWithFlag x result flag s).awaiting = s.awaiting := by rw [writeWithFlag_other]
@[simp] theorem writeWithFlag_halt : (writeWithFlag x result flag s).halt = s.halt := by rw [writeWithFlag_other]
@[simp] theorem writeWithFlag_draws : (writeWithFlag x result flag s).draws = s.draws := by rw [writeWithFlag_other]
end

/-! ## Register blocks -/

theorem mem_regsUpTo {x r : RegIdx} : r ∈ regsUpTo x ↔ r ≤ x := by
  simp [regsUpTo, List.mem_finRange]

/-- V0..VX in order: the k-th is Vk, and there are X + 1 of them. -/
theorem regsUpTo_spec (x : RegIdx) :
    (regsUpTo x).length = x.val + 1 ∧ ∀ k, (h : k < (regsUpTo x).length) → ((regsUpTo x)[k]).val = k := by
  have : ∀ x : RegIdx, (regsUpTo x).length = x.val + 1 ∧
      ∀ k : Fin (regsUpTo x).length, ((regsUpTo x)[k.val]).val = k.val := by decide
  exact ⟨(this x).1, fun k h => (this x).2 ⟨k, h⟩⟩

/-- A block load writes registers only. -/
theorem loadRegs_other (m : Memory) (base : Nat) (rs : List RegIdx) (s : State) :
    loadRegs m base rs s = { s with v := (loadRegs m base rs s).v } := by
  induction rs generalizing s with
  | nil => rfl
  | cons r rs ih => rw [loadRegs, ih]; rfl

/-- What a block load leaves in every register. -/
theorem loadRegs_reg (m : Memory) (base : Nat) (rs : List RegIdx) (s : State) (q : RegIdx) :
    (loadRegs m base rs s).reg q = if q ∈ rs then m.read (base + q.val) else s.reg q := by
  induction rs generalizing s with
  | nil => simp [loadRegs]
  | cons r rs ih =>
    rw [loadRegs, ih, State.setReg_reg]
    by_cases h1 : q ∈ rs <;> by_cases h2 : q = r <;> simp [h1, h2]

section
variable (m : Memory) (base : Nat) (rs : List RegIdx) (s : State)
@[simp] theorem loadRegs_cfg : (loadRegs m base rs s).cfg = s.cfg := by rw [loadRegs_other]
@[simp] theorem loadRegs_mem : (loadRegs m base rs s).mem = s.mem := by rw [loadRegs_other]
@[simp] theorem loadRegs_i : (loadRegs m base rs s).i = s.i := by rw [loadRegs_other]
@[simp] theorem loadRegs_ip : (loadRegs m base rs s).ip = s.ip := by rw [loadRegs_other]
@[simp] theorem loadRegs_stack : (loadRegs m base rs s).stack = s.stack := by rw [loadRegs_other]
@[simp] theorem loadRegs_sp : (loadRegs m base rs s).sp = s.sp := by rw [loadRegs_other]
@[simp] theorem loadRegs_dt : (loadRegs m base rs s).dt = s.dt := by rw [loadRegs_other]
@[simp] theorem loadRegs_st : (loadRegs m base rs s).st = s.st := by rw [loadRegs_other]
@[simp] theorem loadRegs_fb : (loadRegs m base rs s).fb = s.fb := by rw [loadRegs_other]
@[simp] theorem loadRegs_keys : (loadRegs m base rs s).keys = s.keys := by rw [loadRegs_other]
@[simp] theorem loadRegs_awaiting : (loadRegs m base rs s).awaiting = s.awaiting := by rw [loadRegs_other]
@[simp] theorem loadRegs_halt : (loadRegs m base rs s).halt = s.halt := by rw [loadRegs_other]
@[simp] theorem loadRegs_draws : (loadRegs m base rs s).draws = s.draws := by rw [loadRegs_other]
end

/-! ## Pixels -/

theorem Framebuffer.toggle_pixel (f : Framebuffer) (px qx : Fin 64) (py qy : Fin 32) :
    (f.toggle px py).pixel qx qy = if qx = px ∧ qy = py then !f.pixel qx qy else f.pixel qx qy := by
  unfold Framebuffer.toggle Framebuffer.pixel
  by_cases hy : qy = py
  · subst hy
    by_cases hx : qx = px
    · subst hx; simp [Vector.get_eq_getElem]
    · have : px.val ≠ qx.val := fun e => hx (Fin.ext e.symm)
      simp [Vector.get_eq_getElem, hx, this]
  · have : py.val ≠ qy.val := fun e => hy (Fin.ext e.symm)
    simp [Vector.get_eq_getElem, hy, this]

/-- Toggling distinct pixels: each listed pixel is turned, no other changes, and the collision tells whether a listed
pixel was lit. -/
theorem togglePixels_spec (ps : List (Fin 64 × Fin 32)) (hnd : ps.Nodup) (f : Framebuffer) (c : Bool) :
    (∀ qx qy, (togglePixels ps (f, c)).1.pixel qx qy = if (qx, qy) ∈ ps then !f.pixel qx qy else f.pixel qx qy) ∧
    ((togglePixels ps (f, c)).2 = true ↔ c = true ∨ ∃ p ∈ ps, f.pixel p.1 p.2 = true) := by
  induction ps generalizing f c with
  | nil => simp [togglePixels]
  | cons p ps ih =>
    rw [List.nodup_cons] at hnd
    obtain ⟨ih1, ih2⟩ := ih hnd.2 (f.toggle p.1 p.2) (c || f.pixel p.1 p.2)
    have same : ∀ q ∈ ps, (f.toggle p.1 p.2).pixel q.1 q.2 = f.pixel q.1 q.2 := by
      intro q hq
      rw [Framebuffer.toggle_pixel, if_neg]
      rintro ⟨h1, h2⟩
      exact hnd.1 (by rwa [← Prod.ext h1 h2])
    constructor
    · intro qx qy
      rw [togglePixels, ih1, Framebuffer.toggle_pixel]
      by_cases h1 : (qx, qy) ∈ ps
      · have hne : ¬ (qx = p.1 ∧ qy = p.2) := by
          rintro ⟨rfl, rfl⟩; exact hnd.1 h1
        simp [h1, hne]
      · by_cases h2 : qx = p.1 ∧ qy = p.2
        · obtain ⟨rfl, rfl⟩ := h2; simp [h1]
        · have : (qx, qy) ≠ p := fun h => h2 ⟨by rw [← h], by rw [← h]⟩
          simp [h1, h2, this]
    · rw [togglePixels, ih2]
      simp only [Bool.or_eq_true, List.mem_cons, exists_eq_or_imp]
      constructor
      · rintro ((h | h) | ⟨q, hq, h⟩)
        · exact .inl h
        · exact .inr (.inl h)
        · exact .inr (.inr ⟨q, hq, by rwa [same q hq] at h⟩)
      · rintro (h | h | ⟨q, hq, h⟩)
        · exact .inl (.inl h)
        · exact .inl (.inr h)
        · exact .inr ⟨q, hq, by rwa [same q hq]⟩

/-! ## Sprites -/

/-- The set bits of a sprite: row below the number of rows, column below 8, bit 7 leftmost. -/
theorem mem_spriteBits {rows : List Byte} {r c : Nat} :
    (r, c) ∈ spriteBits rows ↔ ∃ h : r < rows.length, c < 8 ∧ rows[r].getLsbD (7 - c) = true := by
  simp only [spriteBits, List.mem_flatMap, List.mem_map, List.mem_filter, List.mem_range, Prod.exists, Prod.mk.injEq]
  constructor
  · rintro ⟨b, r', hm, c', ⟨hc, hb⟩, rfl, rfl⟩
    obtain ⟨h1, h2⟩ := List.mem_zipIdx' hm
    exact ⟨h1, hc, by rw [← h2]; exact hb⟩
  · rintro ⟨h, hc, hb⟩
    refine ⟨rows[r], r, ?_, c, ⟨hc, hb⟩, rfl, rfl⟩
    rw [List.mem_zipIdx_iff_getElem?]; simp [h]

/-- No set bit is listed twice. -/
theorem nodup_spriteBits (rows : List Byte) : (spriteBits rows).Nodup := by
  unfold spriteBits
  rw [List.nodup_flatMap]
  constructor
  · rintro ⟨b, r⟩ _
    exact List.Nodup.map (fun a b h => by simpa using h) (List.Nodup.filter _ (List.nodup_range))
  · have : (rows.zipIdx.map Prod.snd).Pairwise (· ≠ ·) := by
      rw [List.zipIdx_map_snd]; exact List.nodup_range'
    rw [List.pairwise_map] at this
    refine this.imp ?_
    rintro ⟨b, r⟩ ⟨b', r'⟩ h p h1 h2
    simp only [ne_eq, List.mem_map, List.mem_filter, List.mem_range] at h1 h2 h
    obtain ⟨_, _, rfl⟩ := h1
    obtain ⟨_, _, h2⟩ := h2
    simp only [Prod.mk.injEq] at h2
    exact h h2.1.symm

/-- No pixel is toggled twice by one sprite of at most 32 rows (43_display.md R192). -/
theorem nodup_spritePixels (edge : DrawEdge) (x0 y0 : Byte) (rows : List Byte) (hl : rows.length ≤ 32) :
    (spritePixels edge x0 y0 rows).Nodup := by
  unfold spritePixels
  have hsub : ∀ p ∈ spriteBits rows, p.1 < 32 ∧ p.2 < 8 := by
    rintro ⟨r, c⟩ h; obtain ⟨h1, h2, _⟩ := mem_spriteBits.1 h; exact ⟨by simp; omega, h2⟩
  have inj : ∀ p ∈ spriteBits rows, ∀ q ∈ spriteBits rows, ∀ a,
      pixelAt edge x0 y0 p = some a → pixelAt edge x0 y0 q = some a → p = q := by
    rintro ⟨r, c⟩ hp ⟨r', c'⟩ hq a h1 h2
    have hp := hsub _ hp; have hq := hsub _ hq
    simp only at hp hq
    rw [← h2] at h1
    cases edge with
    | wrap => simp [pixelAt] at h1; ext <;> simp <;> omega
    | clip =>
      unfold pixelAt at h1 h2; simp only at h1 h2
      split at h2
      · rename_i hh; rw [dif_pos hh] at h1; split at h1
        · simp at h1; ext <;> simp <;> omega
        · simp at h1
      · simp at h2
  have hnd := nodup_spriteBits rows
  generalize spriteBits rows = l at *
  induction l with
  | nil => simp
  | cons p l ih =>
    rw [List.nodup_cons] at hnd
    have ih := ih (fun q hq => hsub q (List.mem_cons_of_mem _ hq))
      (fun q hq r hr => inj q (List.mem_cons_of_mem _ hq) r (List.mem_cons_of_mem _ hr)) hnd.2
    cases hp : pixelAt edge x0 y0 p with
    | none => rw [List.filterMap_cons_none hp]; exact ih
    | some a =>
      rw [List.filterMap_cons_some hp, List.nodup_cons]
      refine ⟨fun h => ?_, ih⟩
      obtain ⟨q, hq, hqa⟩ := List.mem_filterMap.1 h
      have := inj p (List.mem_cons_self ..) q (List.mem_cons_of_mem _ hq) a hp hqa
      subst this; exact hnd.1 hq

/-! ## Keys -/

theorem mem_pressedKeys {s : State} {k : RegIdx} : k ∈ pressedKeys s ↔ s.keys.get k = true := by
  simp [pressedKeys, List.mem_finRange]

theorem pickKey_mem (k : RegIdx) (rest : List RegIdx) (n : Nat) : pickKey k rest n ∈ k :: rest := by
  induction rest generalizing k n with
  | nil => cases n <;> simp [pickKey]
  | cons k' rest ih =>
    cases n with
    | zero => simp [pickKey]
    | succ n => rw [pickKey]; exact List.mem_cons_of_mem _ (ih k' n)

/-- Every member is the answer for some draw: the choice is limited by nothing but the list. -/
theorem pickKey_surjective (k : RegIdx) (rest : List RegIdx) (j : RegIdx) (h : j ∈ k :: rest) :
    ∃ n, pickKey k rest n = j := by
  induction rest generalizing k with
  | nil => exact ⟨0, by rw [pickKey]; exact (List.mem_singleton.1 h).symm⟩
  | cons k' rest ih =>
    rcases List.mem_cons.1 h with rfl | h
    · exact ⟨0, rfl⟩
    · obtain ⟨n, hn⟩ := ih k' h
      exact ⟨n + 1, hn⟩

/-- No key is drawn exactly when none is pressed. -/
theorem drawnKey_none {s : State} : drawnKey s = none ↔ ∀ k, s.keys.get k = false := by
  have hmem := @mem_pressedKeys s
  unfold drawnKey
  cases hp : pressedKeys s with
  | nil =>
    simp only [true_iff]
    intro k
    have := hmem (k := k)
    rw [hp] at this
    simpa using this
  | cons j rest =>
    simp only [reduceCtorEq, false_iff]
    intro hall
    have : s.keys.get j = true := hmem.1 (by rw [hp]; exact List.mem_cons_self ..)
    rw [hall j] at this
    cases this

/-- A drawn key is pressed. -/
theorem drawnKey_pressed {s : State} {k : RegIdx} (h : drawnKey s = some k) : s.keys.get k = true := by
  apply mem_pressedKeys.1
  unfold drawnKey at h
  cases hp : pressedKeys s with
  | nil => rw [hp] at h; cases h
  | cons j rest =>
    rw [hp] at h
    rw [← Option.some.inj h]
    exact pickKey_mem j rest _

end Sys2Proof.Machine
end

