-- ==== Sys2Proof/Laws/Frame.lean ====
section
/-! SUPPORT. How a frame follows from the shape of the next state. -/

namespace Sys2Proof.Machine

/-- An instruction that writes IP alone. -/
theorem Frame.of_ip {s t : State} (ht : t = { s with ip := t.ip }) : Frame {} s t := by
  rw [ht]
  exact ⟨fun _ _ => rfl, fun _ _ => rfl, fun _ => rfl, fun _ => ⟨rfl, rfl⟩, fun _ => rfl, fun _ => rfl, fun _ => rfl,
    fun _ => rfl, fun _ => rfl, rfl, rfl, rfl⟩

/-- An instruction that writes registers and IP alone. -/
theorem Frame.of_regs {ds : List RegIdx} {s t : State} (hr : ∀ r, r ∉ ds → t.reg r = s.reg r)
    (ht : t = { s with v := t.v, ip := t.ip }) : Frame { regs := ds } s t := by
  rw [ht] at hr ⊢
  exact ⟨hr, fun _ _ => rfl, fun _ => rfl, fun _ => ⟨rfl, rfl⟩, fun _ => rfl, fun _ => rfl, fun _ => rfl,
    fun _ => rfl, fun _ => rfl, rfl, rfl, rfl⟩

/-- A register write and IP. -/
theorem Frame.of_setReg (x : RegIdx) (b : Byte) (s : State) : Frame { regs := [x] } s (s.setReg x b).advance :=
  Frame.of_regs (fun r hr => by simp at hr; simp [State.setReg_reg, hr]) rfl

/-- A flagged write and IP. -/
theorem Frame.of_writeWithFlag (x : RegIdx) (result flag : Byte) (s : State) :
    Frame { regs := [x, VF] } s (writeWithFlag x result flag s).advance := by
  refine Frame.of_regs (fun r hr => ?_) ?_
  · simp at hr
    simp [writeWithFlag_reg, hr]
  · rw [writeWithFlag_other]; rfl

/-- What a flagged write leaves in V[X] and VF. -/
theorem FlaggedWrite.of_writeWithFlag (x : RegIdx) (result flag : Byte) (s : State) :
    FlaggedWrite x result.toNat flag.toNat s (writeWithFlag x result flag s).advance := by
  constructor
  · intro h
    simp [writeWithFlag_reg, h, Ne.symm h]
  · intro h
    subst h
    simp only [State.advance_reg, writeWithFlag_reg]
    cases s.cfg.vfOrder <;> simp

theorem flagOf_toNat (c : Bool) : (flagOf c).toNat = if c then 1 else 0 := by cases c <;> rfl

end Sys2Proof.Machine
end

