-- ==== Sys2Proof/Laws/PerInstr.lean ====
section
/-! SUPPORT. Statements made instruction by instruction. `TablePattern`: the word of a well-formed instruction
matches its row of spec/opcode_table.json, its bits under the row's mask being the row's match. -/

namespace Sys2Proof.Laws.TablePattern

/-- The word has the row's fixed bits, with every operand in its field and as the encoder of R87 writes it. -/
def Statement (i : Instr) : Prop :=
  i.wellFormed = true → fieldWord i &&& (tableRow i).1 = (tableRow i).2 ∧ encode i &&& (tableRow i).1 = (tableRow i).2

/-- The two words are one but for SHR and SHL. -/
theorem oneWord {a b : Word} (h : a = b) : a = b ∧ a = b := ⟨h, h⟩

/-- The bits under the mask 0xF000 are the family. -/
theorem mask_family (w : Word) : (w &&& 0xF000).toNat = w.toNat / 4096 * 4096 := by
  have h : w &&& (0xF000 : Word) = (w >>> (12 : Nat)) <<< (12 : Nat) := by
    apply BitVec.eq_of_getLsbD_eq
    intro b hb
    have : ∀ b : Fin 16, (0xF000 : Word).getLsbD b.val = decide (12 ≤ b.val) := by decide
    have := this ⟨b, hb⟩
    simp only at this
    simp only [BitVec.getLsbD_and, this, BitVec.getLsbD_shiftLeft, BitVec.getLsbD_ushiftRight]
    by_cases h12 : b < 12
    · simp [h12, Nat.not_le.2 h12]
    · simp [h12, hb, Nat.not_lt.1 h12]
  have := w.isLt
  rw [h, BitVec.toNat_shiftLeft, BitVec.toNat_ushiftRight, Nat.shiftRight_eq_div_pow, Nat.shiftLeft_eq]
  omega

/-- The bits under a mask of low bits are a remainder. -/
theorem mask_low (w : Word) (k : Nat) (hk : k < 16) : (w &&& BitVec.ofNat 16 (2 ^ k - 1)).toNat = w.toNat % 2 ^ k := by
  have : (2 ^ k - 1) % 2 ^ 16 = 2 ^ k - 1 := by
    apply Nat.mod_eq_of_lt
    have : 2 ^ k < 2 ^ 16 := Nat.pow_lt_pow_right (by decide) hk
    omega
  rw [BitVec.toNat_and, BitVec.toNat_ofNat, this, Nat.and_two_pow_sub_one_eq_mod]

/-- Two disjoint masks: a word has the fixed bits of both when it has those of each. -/
theorem mask_or (w m n p q : Word) (hm : w &&& m = p) (hn : w &&& n = q) : w &&& (m ||| n) = p ||| q := by
  rw [← hm, ← hn]
  apply BitVec.eq_of_getLsbD_eq
  intro b _
  simp only [BitVec.getLsbD_and, BitVec.getLsbD_or]
  cases w.getLsbD b <;> cases m.getLsbD b <;> rfl

/-- A word of family `f` matches the row of format `A` or `XK` of that family. -/
theorem of_family {w p : Word} {f : Nat} (hw : w.toNat / 4096 = f) (hp : p.toNat = f * 4096) : w &&& 0xF000 = p := by
  apply BitVec.eq_of_toNat_eq; rw [mask_family, hw, hp]

/-- A word of family `f` with low nibble `n` matches the row of format `XYN`. -/
theorem of_nibble {w : Word} {f n : Nat} (hw : w.toNat / 4096 = f) (hn : w.toNat % 16 = n) (hf : f ≤ 15) :
    w &&& 0xF00F = BitVec.ofNat 16 (f * 4096) ||| BitVec.ofNat 16 n := by
  refine mask_or w 0xF000 0x000F _ _ (of_family hw (by simp only [BitVec.toNat_ofNat]; omega)) ?_
  apply BitVec.eq_of_toNat_eq
  rw [show (0x000F : Word) = BitVec.ofNat 16 (2 ^ 4 - 1) from rfl, mask_low w 4 (by decide), BitVec.toNat_ofNat]
  omega

/-- A word of family `f` with low byte `k` matches the row of format `XS`. -/
theorem of_byte {w : Word} {f k : Nat} (hw : w.toNat / 4096 = f) (hk : w.toNat % 256 = k) (hf : f ≤ 15) :
    w &&& 0xF0FF = BitVec.ofNat 16 (f * 4096) ||| BitVec.ofNat 16 k := by
  refine mask_or w 0xF000 0x00FF _ _ (of_family hw (by simp only [BitVec.toNat_ofNat]; omega)) ?_
  apply BitVec.eq_of_toNat_eq
  rw [show (0x00FF : Word) = BitVec.ofNat 16 (2 ^ 8 - 1) from rfl, mask_low w 8 (by decide), BitVec.toNat_ofNat]
  omega

/-- Format `A` words. -/
theorem rowA {f : Nat} {p : Word} (nnn : Addr12) (hf : f ≤ 15) (hp : p.toNat = f * 4096) :
    packA f nnn &&& 0xF000 = p := of_family (by rw [← fieldF_eq, fieldF_packA nnn hf]) hp

/-- Format `XK` words. -/
theorem rowXK {f : Nat} {p : Word} (x : RegIdx) (nn : Byte) (hf : f ≤ 15) (hp : p.toNat = f * 4096) :
    packXK f x nn &&& 0xF000 = p := of_family (by rw [← fieldF_eq, fieldF_packXK x nn hf]) hp

/-- Format `XYN` words of a family without a sub-selector. -/
theorem rowXY {f n : Nat} {p : Word} (x y : RegIdx) (hf : f ≤ 15) (hn : n ≤ 15) (hp : p.toNat = f * 4096) :
    packXYN f x y n &&& 0xF000 = p := of_family (by rw [← fieldF_eq, fieldF_packXYN x y hf hn]) hp

/-- Format `XYN` words with the sub-selector `N`. -/
theorem rowXYN {f n : Nat} (x y : RegIdx) (hf : f ≤ 15) (hn : n ≤ 15) :
    packXYN f x y n &&& 0xF00F = BitVec.ofNat 16 (f * 4096) ||| BitVec.ofNat 16 n :=
  of_nibble (by rw [← fieldF_eq, fieldF_packXYN x y hf hn]) (by rw [← fieldN_eq, fieldN_packXYN x y hf hn]) hf

/-- Format `XS` words, with the sub-selector `NN`. -/
theorem rowXS {f : Nat} (x : RegIdx) (k : Byte) (hf : f ≤ 15) :
    packXK f x k &&& 0xF0FF = BitVec.ofNat 16 (f * 4096) ||| BitVec.ofNat 16 k.toNat :=
  of_byte (by rw [← fieldF_eq, fieldF_packXK x k hf]) (by rw [← fieldNN_toNat, fieldNN_packXK x k hf]) hf

theorem cls : Statement .cls := fun _ => oneWord rfl
theorem ret : Statement .ret := fun _ => oneWord rfl
theorem jp (nnn : Addr12) : Statement (.jp nnn) := fun _ => oneWord (rowA nnn (by decide) rfl)
theorem call (nnn : Addr12) : Statement (.call nnn) := fun _ => oneWord (rowA nnn (by decide) rfl)
theorem seImm (x : RegIdx) (nn : Byte) : Statement (.seImm x nn) := fun _ => oneWord (rowXK x nn (by decide) rfl)
theorem sneImm (x : RegIdx) (nn : Byte) : Statement (.sneImm x nn) := fun _ => oneWord (rowXK x nn (by decide) rfl)
theorem seReg (x y : RegIdx) : Statement (.seReg x y) := fun _ => oneWord (rowXY x y (by decide) (by decide) rfl)
theorem ldImm (x : RegIdx) (nn : Byte) : Statement (.ldImm x nn) := fun _ => oneWord (rowXK x nn (by decide) rfl)
theorem addImm (x : RegIdx) (nn : Byte) : Statement (.addImm x nn) := fun _ => oneWord (rowXK x nn (by decide) rfl)
theorem ldReg (x y : RegIdx) : Statement (.ldReg x y) := fun _ => oneWord (rowXYN x y (by decide) (by decide))
theorem orReg (x y : RegIdx) : Statement (.orReg x y) := fun _ => oneWord (rowXYN x y (by decide) (by decide))
theorem andReg (x y : RegIdx) : Statement (.andReg x y) := fun _ => oneWord (rowXYN x y (by decide) (by decide))
theorem xorReg (x y : RegIdx) : Statement (.xorReg x y) := fun _ => oneWord (rowXYN x y (by decide) (by decide))
theorem addReg (x y : RegIdx) : Statement (.addReg x y) := fun _ => oneWord (rowXYN x y (by decide) (by decide))
theorem subReg (x y : RegIdx) : Statement (.subReg x y) := fun _ => oneWord (rowXYN x y (by decide) (by decide))
theorem shr (x y : RegIdx) : Statement (.shr x y) :=
  fun _ => ⟨rowXYN x y (by decide) (by decide), rowXYN x 0 (by decide) (by decide)⟩
theorem subnReg (x y : RegIdx) : Statement (.subnReg x y) := fun _ => oneWord (rowXYN x y (by decide) (by decide))
theorem shl (x y : RegIdx) : Statement (.shl x y) :=
  fun _ => ⟨rowXYN x y (by decide) (by decide), rowXYN x 0 (by decide) (by decide)⟩
theorem sneReg (x y : RegIdx) : Statement (.sneReg x y) := fun _ => oneWord (rowXY x y (by decide) (by decide) rfl)
theorem ldI (nnn : Addr12) : Statement (.ldI nnn) := fun _ => oneWord (rowA nnn (by decide) rfl)
theorem jpV0 (nnn : Addr12) : Statement (.jpV0 nnn) := fun _ => oneWord (rowA nnn (by decide) rfl)
theorem rnd (x : RegIdx) (nn : Byte) : Statement (.rnd x nn) := fun _ => oneWord (rowXK x nn (by decide) rfl)
theorem drw (x y : RegIdx) (n : Nat) : Statement (.drw x y n) :=
  fun h => oneWord (rowXY x y (by decide) (of_decide_eq_true h) rfl)
theorem skp (x : RegIdx) : Statement (.skp x) := fun _ => oneWord (rowXS x 0x9E (by decide))
theorem sknp (x : RegIdx) : Statement (.sknp x) := fun _ => oneWord (rowXS x 0xA1 (by decide))
theorem ldVxDt (x : RegIdx) : Statement (.ldVxDt x) := fun _ => oneWord (rowXS x 0x07 (by decide))
theorem ldVxK (x : RegIdx) : Statement (.ldVxK x) := fun _ => oneWord (rowXS x 0x0A (by decide))
theorem ldDtVx (x : RegIdx) : Statement (.ldDtVx x) := fun _ => oneWord (rowXS x 0x15 (by decide))
theorem ldStVx (x : RegIdx) : Statement (.ldStVx x) := fun _ => oneWord (rowXS x 0x18 (by decide))
theorem addI (x : RegIdx) : Statement (.addI x) := fun _ => oneWord (rowXS x 0x1E (by decide))
theorem ldF (x : RegIdx) : Statement (.ldF x) := fun _ => oneWord (rowXS x 0x29 (by decide))
theorem ldB (x : RegIdx) : Statement (.ldB x) := fun _ => oneWord (rowXS x 0x33 (by decide))
theorem stRegs (x : RegIdx) : Statement (.stRegs x) := fun _ => oneWord (rowXS x 0x55 (by decide))
theorem ldRegs (x : RegIdx) : Statement (.ldRegs x) := fun _ => oneWord (rowXS x 0x65 (by decide))

end Sys2Proof.Laws.TablePattern
end

