-- ==== Sys2Proof/Laws/Step.lean ====
section
/-! SUPPORT. What a fetch, a wait cycle and a step can do, said once. -/

namespace Sys2Proof.Machine

/-- A fetched instruction: IP is at most 0x0FFE and the two bytes there decode to it. -/
theorem fetchInstr_ok {s : State} {i : Instr} (h : fetchInstr s = .ok i) :
    s.ip.toNat ≤ 0x0FFE ∧
    decodeWord s.cfg.strictDecode (wordOfBytes (s.mem.read s.ip.toNat) (s.mem.read (s.ip.toNat + 1))) = .ok i := by
  by_cases hr : memSize ≤ s.ip.toNat + 1
  · simp [fetchInstr, fetchOpcode, hr] at h
  · simp only [fetchInstr, fetchOpcode, hr, if_false] at h
    simp only [memSize] at hr
    refine ⟨by omega, ?_⟩
    cases hd : decodeWord s.cfg.strictDecode
      (wordOfBytes (s.mem.read s.ip.toNat) (s.mem.read (s.ip.toNat + 1))) with
    | ok j => rw [hd] at h; simpa using h
    | error r => rw [hd] at h; simp at h

/-- Inside memory the fetch succeeds, and what follows is the decode of its word. -/
theorem fetchInstr_inside {s : State} (h : s.ip.toNat + 1 ≤ 0xFFF) :
    fetchInstr s = match decodeWord s.cfg.strictDecode
        (wordOfBytes (s.mem.read s.ip.toNat) (s.mem.read (s.ip.toNat + 1))) with
      | .ok i => .ok i
      | .error _ => .error (decodeErrorAt s.ip
          (wordOfBytes (s.mem.read s.ip.toNat) (s.mem.read (s.ip.toNat + 1)))) := by
  have hr : ¬ memSize ≤ s.ip.toNat + 1 := by simp only [memSize]; omega
  simp only [fetchInstr, fetchOpcode, hr, if_false] <;> rfl

/-- Past memory the fetch fails, with the first address of the pair that is out of range. -/
theorem fetchInstr_outside {s : State} (h : 0x1000 ≤ s.ip.toNat + 1) :
    fetchInstr s = .error (.addressError s.ip (if s.ip.toNat < 4096 then s.ip.toNat + 1 else s.ip.toNat) .fetch) := by
  have hr : memSize ≤ s.ip.toNat + 1 := h
  simp only [fetchInstr, fetchOpcode, hr, if_true]
  rfl

/-- A wait cycle answers a next state: unchanged with no key pressed, the stored key otherwise. -/
theorem waitCycle_next {r : RegIdx} {s t : State} (h : waitCycle r s = .next t) :
    (drawnKey s = none ∧ t = s) ∨
    (∃ k, drawnKey s = some k ∧ t = (storeKey r k s).setAwaiting none) := by
  unfold waitCycle at h
  cases hk : drawnKey s with
  | none => rw [hk] at h; exact .inl ⟨rfl, by simpa using h.symm⟩
  | some k => rw [hk] at h; exact .inr ⟨k, rfl, by simpa using h.symm⟩

/-- Every way a step answers a next state: a wait cycle, an error of the fetch or the decode, an instruction. -/
theorem step_next {s t : State} (h : step s = .next t) :
    s.halt = none ∧
    ((∃ r, s.awaiting = some r ∧ waitCycle r s = .next t) ∨
     (s.awaiting = none ∧ ∃ e, fetchInstr s = .error e ∧ t = s.setHalt (some e)) ∨
     (s.awaiting = none ∧ ∃ i, fetchInstr s = .ok i ∧ exec i s = .next t)) := by
  unfold step at h
  cases hh : s.halt with
  | some e => rw [hh] at h; simp at h
  | none =>
    refine ⟨rfl, ?_⟩
    rw [hh] at h
    cases ha : s.awaiting with
    | some r => rw [ha] at h; exact .inl ⟨r, rfl, h⟩
    | none =>
      rw [ha] at h
      cases hf : fetchInstr s with
      | error e => rw [hf] at h; exact .inr (.inl ⟨rfl, e, rfl, by simpa [raise] using h.symm⟩)
      | ok i => rw [hf] at h; exact .inr (.inr ⟨rfl, i, rfl, h⟩)

/-- A step of a machine that is neither halted nor waiting fetches and executes. -/
theorem step_running {s : State} (hh : s.halt = none) (ha : s.awaiting = none) :
    step s = match fetchInstr s with
      | .error e => raise e s
      | .ok i => exec i s := by
  simp only [step, hh, ha] <;> rfl

theorem step_waiting {s : State} {r : RegIdx} (hh : s.halt = none) (ha : s.awaiting = some r) :
    step s = waitCycle r s := by
  simp only [step, hh, ha]

/-- No meaning stops: every instruction answers a next state, an error's HALT record among them. -/
theorem exec_answers_next (i : Instr) (s : State) : ∃ t, exec i s = .next t := by
  have checks : ∀ (f : Option Error) (t : State), ∃ u, afterChecks f s t = .next u := by
    intro f t; cases f <;> exact ⟨_, rfl⟩
  cases i with
  | ret => by_cases h : s.sp = 0 <;> simp [exec, execRet, h, raise]
  | call nnn => by_cases h : s.sp = s.cfg.stackDepth <;> simp [exec, execCall, h, raise]
  | ldVxK x => cases h : drawnKey s <;> simp [exec, execLdVxK, h]
  | ldB x => exact checks _ _
  | stRegs x => exact checks _ _
  | ldRegs x => exact checks _ _
  | drw x y n => exact checks _ _
  | _ => exact ⟨_, rfl⟩

/-- What a cycle leaves, for a machine that has not failed: the step's next state. -/
theorem afterCycle_of_next {s t : State} (h : step s = .next t) : afterCycle s = t := by
  simp [afterCycle, h]

/-- A machine that has not failed goes on: the step answers a next state. -/
theorem step_answers_next {s : State} (hh : s.halt = none) : ∃ t, step s = .next t := by
  cases ha : s.awaiting with
  | some r =>
    rw [step_waiting hh ha, waitCycle]
    cases drawnKey s <;> exact ⟨_, rfl⟩
  | none =>
    rw [step_running hh ha]
    cases fetchInstr s with
    | error e => exact ⟨_, rfl⟩
    | ok i => exact exec_answers_next i s

/-- A failed machine answers the fault that names its error. -/
theorem step_halted {s : State} {e : Error} (hh : s.halt = some e) : step s = .fault (.halted e) := by
  simp only [step, hh]

/-! ## Runs of steps, and the cycles of a batch -/

/-- A run of one step more, after a step that answered; for every machine. -/
theorem coreRun_succ_of_next (M : Host.Core) {s t : M.State} (n : Nat) (h : M.step s = .next t) :
    M.run (n + 1) s = M.run n t := by
  simp only [Host.Core.run, h]

/-- A run whose first step is a fault is that fault; for every machine. -/
theorem coreRun_succ_of_fault (M : Host.Core) {s : M.State} {f : M.Fault} (n : Nat) (h : M.step s = .fault f) :
    M.run (n + 1) s = .fault f := by
  simp only [Host.Core.run, h]

/-- A run of one step more, after a step that answered. -/
theorem run_succ_of_next {s t : State} (n : Nat) (h : step s = .next t) :
    Host.Core.run Sys2Proof.core (n + 1) s = Host.Core.run Sys2Proof.core n t :=
  coreRun_succ_of_next Sys2Proof.core n h

/-- A failed machine runs no step. -/
theorem run_halted {s t : State} {e : Error} {n : Nat} (hh : s.halt = some e)
    (h : Host.Core.run Sys2Proof.core n s = .next t) : n = 0 ∧ t = s := by
  cases n with
  | zero => exact ⟨rfl, (Host.Outcome.next.inj h).symm⟩
  | succ n => cases h.symm.trans (coreRun_succ_of_fault Sys2Proof.core n (step_halted hh))

/-- One cycle more of a batch: it ends there when the step raised, and goes on otherwise. -/
theorem runCycles_succ_of_next {s t : State} (n : Nat) (h : step s = .next t) :
    runCycles (n + 1) s = if t.halt = none then runCycles n t else t := by
  rw [runCycles, afterCycle_of_next h]
  cases t.halt <;> simp

end Sys2Proof.Machine
end

