-- ==== Sys2Proof/Tests/Slice0.lean ====
section
/-! SUPPORT. Own tests: words and results taken from 95_test_vectors.md and from the examples of the rules, and for
every statement that has hypotheses a witness that meets them. -/

namespace Sys2Proof.Machine.Tests

open Sys2Proof Sys2Proof.Machine

/-! ## Helpers -/

/-- `s` with the word `op` at address `a`. -/
def wordAt (a : Nat) (op : Word) (s : State) : State :=
  s.setMem ((s.mem.write a (hiByte op)).write (a + 1) (loByte op))

/-- `s` with the bytes `bs` from address `a`. -/
def bytesAt (a : Nat) (bs : List Byte) (s : State) : State := s.setMem (s.mem.storeBytes a bs)

/-- The reset state with some registers set. -/
def withRegs (rs : List (RegIdx × Byte)) : State := rs.foldl (fun s r => s.setReg r.1 r.2) State.reset

/-- The reset state under another configuration. -/
def underConfig (c : Config) (rs : List (RegIdx × Byte)) : State :=
  rs.foldl (fun s r => s.setReg r.1 r.2) (State.resetWith c)

/-- What `f` sees of the state after one step that runs `op` at IP; none where the step stops. -/
def after {α : Type} (op : Word) (s : State) (f : State → α) : Option α :=
  match step (wordAt s.ip.toNat op s) with
  | .next t => some (f t)
  | .fault _ => none
  | .refused _ => none

/-- The three bytes at `a`. -/
def three (a : Nat) (t : State) : Byte × Byte × Byte := (t.mem.read a, t.mem.read (a + 1), t.mem.read (a + 2))

/-! ## Well-formedness: the one check, with the term it refuses -/

theorem test_wellFormed_refuses_sixteen_rows : (Instr.drw 0 0 16).wellFormed = false := by decide
theorem test_wellFormed_admits_fifteen_rows : (Instr.drw 0 0 15).wellFormed = true := by decide

/-! ## Decoding: one word for every constructor (95_test_vectors.md sections 1, 2 and 3) -/

theorem test_decode_family_0 :
    decodeWord false 0x00E0 = .ok .cls ∧ decodeWord false 0x00EE = .ok .ret ∧ decodeWord false 0x0000 = .ok .cls ∧
    decodeWord false 0x012E = .ok .ret ∧ decodeWord false 0x0FFE = .ok .ret ∧
    decodeWord true 0x00E0 = .ok .cls ∧ decodeWord true 0x00EE = .ok .ret := by decide
theorem test_decode_jumps_and_calls :
    decodeWord false 0x1234 = .ok (.jp 0x234) ∧ decodeWord false 0x2210 = .ok (.call 0x210) ∧
    decodeWord false 0xB300 = .ok (.jpV0 0x300) := by decide
theorem test_decode_skips :
    decodeWord false 0x332A = .ok (.seImm 3 0x2A) ∧ decodeWord false 0x43FF = .ok (.sneImm 3 0xFF) ∧
    decodeWord false 0x5120 = .ok (.seReg 1 2) ∧ decodeWord false 0x9120 = .ok (.sneReg 1 2) ∧
    decodeWord false 0x5121 = .ok (.seReg 1 2) ∧ decodeWord false 0x912F = .ok (.sneReg 1 2) := by decide
theorem test_decode_immediates :
    decodeWord false 0x6A42 = .ok (.ldImm 0xA 0x42) ∧ decodeWord false 0x7203 = .ok (.addImm 2 3) ∧
    decodeWord false 0xC30F = .ok (.rnd 3 0x0F) := by decide
theorem test_decode_family_8 :
    decodeWord false 0x8DF0 = .ok (.ldReg 0xD 0xF) ∧ decodeWord false 0x8011 = .ok (.orReg 0 1) ∧
    decodeWord false 0x8012 = .ok (.andReg 0 1) ∧ decodeWord false 0x8013 = .ok (.xorReg 0 1) ∧
    decodeWord false 0x8564 = .ok (.addReg 5 6) ∧ decodeWord false 0x8125 = .ok (.subReg 1 2) ∧
    decodeWord false 0x8056 = .ok (.shr 0 5) ∧ decodeWord false 0x8017 = .ok (.subnReg 0 1) ∧
    decodeWord false 0x801E = .ok (.shl 0 1) := by decide
theorem test_decode_index_and_draw :
    decodeWord false 0xA2F0 = .ok (.ldI 0x2F0) ∧ decodeWord false 0xDAB5 = .ok (.drw 0xA 0xB 5) ∧
    decodeWord false 0xD000 = .ok (.drw 0 0 0) := by decide
theorem test_decode_family_E :
    decodeWord false 0xE29E = .ok (.skp 2) ∧ decodeWord false 0xE2A1 = .ok (.sknp 2) := by decide
theorem test_decode_family_F :
    decodeWord false 0xF107 = .ok (.ldVxDt 1) ∧ decodeWord false 0xF30A = .ok (.ldVxK 3) ∧
    decodeWord false 0xF015 = .ok (.ldDtVx 0) ∧ decodeWord false 0xF418 = .ok (.ldStVx 4) ∧
    decodeWord false 0xF11E = .ok (.addI 1) ∧ decodeWord false 0xF229 = .ok (.ldF 2) ∧
    decodeWord false 0xF133 = .ok (.ldB 1) ∧ decodeWord false 0xF255 = .ok (.stRegs 2) ∧
    decodeWord false 0xF265 = .ok (.ldRegs 2) := by decide
/-- Section 2.1, the DecodeError rows of the default decode. -/
theorem test_decode_rejects :
    decodeWord false 0x0123 = .error .family0 ∧ decodeWord false 0x00E1 = .error .family0 ∧
    decodeWord false 0x8008 = .error .family8 ∧ decodeWord false 0x800F = .error .family8 ∧
    decodeWord false 0xE09F = .error .familyE ∧ decodeWord false 0xF000 = .error .familyF ∧
    decodeWord false 0xF056 = .error .familyF ∧ decodeWord false 0xFFFF = .error .familyF := by decide
/-- Section 2.1, the rows that STRICT_DECODE turns into a DecodeError. -/
theorem test_decode_strict_rejects :
    decodeWord true 0x0000 = .error .family0 ∧ decodeWord true 0x0FFE = .error .family0 ∧
    decodeWord true 0x5121 = .error .family5 ∧ decodeWord true 0x912F = .error .family9 := by decide
theorem test_decodeTableWord : decodeTableWord 16 0xDAB5 = some (.drw 0xA 0xB 5) ∧ decodeTableWord 16 0x8008 = none := by
  decide
/-- The byte at the lower address is bits 15:8 (20_memory.md R56). -/
theorem test_decodeBytes_is_big_endian : decodeBytes false [0x6A, 0x42, 0xFF] = .ok (.ldImm 0xA 0x42, [0xFF]) := by
  decide

/-- The encoder puts 0 in the Y of SHR and SHL (30_encoding.md R87); 0x8106 and 0x830E stand in section 2.3. -/
theorem test_encode_puts_zero_in_y : encode (.shr 1 5) = 0x8106 ∧ encode (.shl 3 15) = 0x830E ∧
    encode (.subnReg 0 1) = 0x8017 ∧ encode .ret = 0x00EE := by decide
/-- With every operand in its field, SHR V0 with Y = 5 is the word 0x8056 of section 2.3. -/
theorem test_fieldWord_keeps_y : fieldWord (.shr 0 5) = 0x8056 := by decide

/-! ## Memory and reset -/

theorem test_reset_memory_is_canonical : State.reset.mem.wf := by decide
theorem test_reset_registers : (State.reset.ip, State.reset.sp, State.reset.stack.length) = (0x0200, 0, 16) := by decide
/-- Writing back what an unlisted byte reads as removes the entry. -/
theorem test_write_keeps_one_form : Memory.write (Memory.write [] 0x300 5) 0x300 0 = [] := by decide

/-! ## One step of each instruction (95_test_vectors.md section 2) -/

theorem test_cls : after 0x00E0 (State.reset.setFb (State.reset.fb.toggle 5 7)) (fun t => (t.fb.pixel 5 7, t.ip)) =
    some (false, 0x0202) := by decide
theorem test_ret : after 0x00EE (State.reset.push 0x0206) (fun t => (t.sp, t.ip)) = some (0, 0x0208) := by decide
theorem test_ret_on_an_empty_stack : after 0x00EE State.reset (fun t => (t.halt, t.ip)) =
    some (some (.stackUnderflow 0x0200), 0x0200) := by decide
theorem test_jp : after 0x1234 State.reset (fun t => t.ip) = some 0x0234 := by decide
theorem test_call : after 0x2210 (State.reset.setIp 0x0206) (fun t => (t.stackEntry 0, t.sp, t.ip)) =
    some (0x0206, 1, 0x0210) := by decide
theorem test_call_at_full_depth : after 0x2300 { State.reset with sp := 16 } (fun t => (t.halt, t.sp, t.ip)) =
    some (some (.stackOverflow 0x0200), 16, 0x0200) := by decide
theorem test_seImm : after 0x332A ((withRegs [(3, 0x2A)]).setIp 0x0300) (fun t => t.ip) = some 0x0304 := by decide
theorem test_seImm_differs : after 0x332A ((withRegs [(3, 0x2B)]).setIp 0x0300) (fun t => t.ip) = some 0x0302 := by decide
theorem test_sneImm : after 0x43FF ((withRegs [(3, 0x00)]).setIp 0x0300) (fun t => t.ip) = some 0x0304 := by decide
theorem test_sneImm_equal : after 0x432A ((withRegs [(3, 0x2A)]).setIp 0x0300) (fun t => t.ip) = some 0x0302 := by decide
theorem test_seReg : after 0x5120 (withRegs [(1, 7), (2, 7)]) (fun t => t.ip) = some 0x0204 := by decide
theorem test_seReg_differs : after 0x5120 (withRegs [(1, 7), (2, 8)]) (fun t => t.ip) = some 0x0202 := by decide
theorem test_sneReg : after 0x9120 (withRegs [(1, 7), (2, 8)]) (fun t => t.ip) = some 0x0204 := by decide
theorem test_sneReg_same : after 0x9110 (withRegs [(1, 7)]) (fun t => t.ip) = some 0x0202 := by decide
theorem test_jpV0 : after 0xB300 (withRegs [(0, 0x10), (3, 0x77)]) (fun t => t.ip) = some 0x0310 := by decide
theorem test_jpV0_past_memory : after 0xBFFF (withRegs [(0, 0xFF)]) (fun t => t.ip) = some 0x10FE := by decide
theorem test_ldImm : after 0x6A42 State.reset (fun t => (t.reg 0xA, t.ip)) = some (0x42, 0x0202) := by decide
theorem test_addImm : after 0x7203 (withRegs [(2, 0xFE), (VF, 7)]) (fun t => (t.reg 2, t.reg VF)) =
    some (0x01, 7) := by decide
theorem test_ldReg : after 0x8010 (withRegs [(1, 0x33)]) (fun t => (t.reg 0, t.reg 1)) = some (0x33, 0x33) := by decide
theorem test_orReg : after 0x8011 (withRegs [(0, 0x0C), (1, 0x0A), (VF, 9)]) (fun t => (t.reg 0, t.reg VF)) =
    some (0x0E, 9) := by decide
theorem test_andReg : after 0x8012 (withRegs [(0, 0x0C), (1, 0x0A), (VF, 9)]) (fun t => (t.reg 0, t.reg VF)) =
    some (0x08, 9) := by decide
theorem test_xorReg : after 0x8013 (withRegs [(0, 0x0C), (1, 0x0A), (VF, 9)]) (fun t => (t.reg 0, t.reg VF)) =
    some (0x06, 9) := by decide
theorem test_addReg : after 0x8564 (withRegs [(5, 250), (6, 10)]) (fun t => (t.reg 5, t.reg VF)) = some (4, 1) := by decide
theorem test_addReg_into_the_flag : after 0x8F14 (withRegs [(VF, 0xFF), (1, 1)]) (fun t => t.reg VF) = some 1 := by decide
theorem test_subReg : after 0x8125 (withRegs [(1, 3), (2, 10)]) (fun t => (t.reg 1, t.reg VF)) = some (249, 0) := by decide
theorem test_subReg_equal : after 0x8015 (withRegs [(0, 5), (1, 5)]) (fun t => (t.reg 0, t.reg VF)) = some (0, 1) := by
  decide
theorem test_shr : after 0x8106 (withRegs [(1, 3)]) (fun t => (t.reg 1, t.reg VF)) = some (1, 1) := by decide
theorem test_shr_ignores_y : after 0x8056 (withRegs [(0, 2), (5, 0x99)]) (fun t => (t.reg 0, t.reg VF)) =
    some (1, 0) := by decide
theorem test_subnReg_equal : after 0x8017 (withRegs [(0, 5), (1, 5)]) (fun t => (t.reg 0, t.reg VF)) = some (0, 1) := by
  decide
theorem test_subnReg_equal_strict :
    after 0x8017 (underConfig { Config.default with subnFlag := .strict } [(0, 5), (1, 5)])
      (fun t => (t.reg 0, t.reg VF)) = some (0, 0) := by decide
theorem test_shl : after 0x830E (withRegs [(3, 0x81)]) (fun t => (t.reg 3, t.reg VF)) = some (0x02, 1) := by decide
theorem test_shl_result_last :
    after 0x8F0E (underConfig { Config.default with vfOrder := .resultLast } [(VF, 0x81)]) (fun t => t.reg VF) =
      some 2 := by decide
/-- A mask of 0 fixes the result of CXNN whatever byte is drawn (section 2.3, C000). -/
theorem test_rnd_mask_zero (s : State) : ∃ t, exec (.rnd 0 0) s = .next t ∧ t.reg 0 = 0 :=
  ⟨_, rfl, by simp [rndWith]⟩
theorem test_ldI : after 0xA2F0 State.reset (fun t => t.i) = some 0x02F0 := by decide
theorem test_addI_wraps : after 0xF11E ((withRegs [(1, 2)]).setI 0xFFFF) (fun t => (t.i, t.reg VF)) =
    some (0x0001, 0) := by decide
theorem test_ldF_low_nibble : after 0xF229 (withRegs [(2, 0x1A)]) (fun t => t.i) = some 0x0032 := by decide
theorem test_ldF_full :
    after 0xF229 (underConfig { Config.default with fontDigit := .full } [(2, 0x1A)]) (fun t => t.i) = some 0x0082 := by
  decide
theorem test_ldB : after 0xF133 ((withRegs [(1, 0xFF)]).setI 0x0FFD) (three 0xFFD) = some (2, 5, 5) := by decide
theorem test_ldB_protected : after 0xF133 ((withRegs [(1, 0xFF)]).setI 0x004E) (fun t => (t.halt, three 0x4E t)) =
    some (some (.protectedWriteError 0x0200 0x4E), (0, 0, 0)) := by decide
theorem test_stRegs :
    after 0xF255 ((withRegs [(0, 1), (1, 2), (2, 3), (3, 4)]).setI 0x0400)
      (fun t => (three 0x400 t, t.mem.read 0x403, t.i)) = some ((1, 2, 3), 0, 0x0400) := by decide
theorem test_stRegs_past_memory : after 0xF155 ((withRegs [(0, 1), (1, 2)]).setI 0x0FFF)
    (fun t => (t.halt, t.mem.read 0xFFF)) = some (some (.addressError 0x0200 0x1000 .write), 0) := by decide
theorem test_ldRegs : after 0xF265 (bytesAt 0x400 [1, 2, 3, 4] (State.reset.setI 0x0400))
    (fun t => (t.reg 0, t.reg 1, t.reg 2, t.reg 3, t.i)) = some (1, 2, 3, 0, 0x0400) := by decide
theorem test_ldRegs_increments_i :
    after 0xF265 (bytesAt 0x400 [1, 2, 3] ((State.resetWith { Config.default with lsIncrementI := true }).setI 0x0400))
      (fun t => (t.reg 2, t.i)) = some (3, 0x0403) := by decide
/-- FB[1][0] lit, the sprite byte C0 at (0, 0): one pixel collides (section 2.5). -/
theorem test_drw_collision :
    after 0xD011 (bytesAt 0x300 [0xC0] ((State.reset.setI 0x0300).setFb (State.reset.fb.toggle 1 0)))
      (fun t => (t.fb.pixel 0 0, t.fb.pixel 1 0, t.fb.pixel 0 1, t.reg VF)) = some (true, false, false, 1) := by decide
/-- V0 = 62 under clip: only x = 62 and 63 are lit (section 2.5). -/
theorem test_drw_clip :
    after 0xD011 (bytesAt 0x300 [0xFF]
        ((underConfig { Config.default with drawEdge := .clip } [(0, 62)]).setI 0x0300))
      (fun t => (t.fb.pixel 62 0, t.fb.pixel 63 0, t.fb.pixel 0 0, t.reg VF)) = some (true, true, false, 0) := by decide
theorem test_skp_low_nibble : after 0xE29E (((withRegs [(2, 0x17)]).setKey 7 true).setIp 0x020C) (fun t => t.ip) =
    some 0x0210 := by decide
theorem test_sknp : after 0xE2A1 ((withRegs [(2, 7)]).setIp 0x020C) (fun t => t.ip) = some 0x0210 := by decide
theorem test_ldVxK : after 0xF30A (State.reset.setKey 5 true) (fun t => (t.reg 3, t.ip, t.awaiting)) =
    some (5, 0x0202, none) := by decide
theorem test_ldVxK_waits : after 0xF30A State.reset (fun t => (t.awaiting, t.ip)) = some (some 3, 0x0200) := by decide
theorem test_ldVxDt : after 0xF107 (State.reset.setDt 3) (fun t => t.reg 1) = some 3 := by decide
theorem test_ldDtVx : after 0xF015 (withRegs [(0, 3)]) (fun t => (t.dt, t.st)) = some (3, 0) := by decide
theorem test_ldStVx : after 0xF418 (withRegs [(4, 0x10)]) (fun t => (t.st, t.dt)) = some (0x10, 0) := by decide

/-! ## The cycle, the errors and the host (95_test_vectors.md sections 2.1, 2.6, 2.7) -/

theorem test_fetch_at_the_end : after 0x6012 (State.reset.setIp 0x0FFE) (fun t => (t.reg 0, t.ip)) =
    some (0x12, 0x1000) := by decide
theorem test_illegal_word : after 0x0123 State.reset (fun t => t.halt) =
    some (some (.decodeError 0x0200 0x0123 0)) := by decide
theorem test_illegal_word_in_the_font : after 0xF090 (State.reset.setIp 0) (fun t => t.halt) =
    some (some (.decodeError 0x0000 0xF090 (-512))) := by decide
theorem test_wait_cycle :
    after 0 (((State.reset.setKey 7 true).setIp 0x020A).setAwaiting (some 2)) (fun t => (t.reg 2, t.ip, t.awaiting)) =
      some (7, 0x020C, none) := by decide
theorem test_empty_batch_ticks : ((runBatch 0 (State.reset.setDt 5)).2.dt, (runBatch 0 (State.reset.setSt 1)).2.st) =
    (4, 0) := by decide
theorem test_failed_batch_does_not_tick :
    (runBatch 10 (wordAt 0x200 0x00EE (State.reset.setDt 5))).2.dt = 5 := by decide
theorem test_boot_places_the_font_and_the_rom :
    ((boot Config.default [0x12, 0x34]).2.mem.read 0x4F, (boot Config.default [0x12, 0x34]).2.mem.read 0x201) =
      (0x80, 0x34) := by decide

/-! ## Witnesses: a state and operands that meet the hypotheses of each statement together

Each is named after its statement. Clauses over one range get a witness each, at the ends of the range. -/

/-- A block or digit address range inside 0x050..0xFFF, as a decidable check. -/
theorem writable_of {l : List Nat} (h : ∀ a ∈ l, 0x050 ≤ a ∧ a ≤ 0xFFF) : ∀ a ∈ l, Writable a := h
theorem readable_of {l : List Nat} (h : ∀ a ∈ l, a ≤ 0xFFF) : ∀ a ∈ l, Readable a := h
theorem not_writable_of {a : Nat} (h : ¬ (0x050 ≤ a ∧ a ≤ 0xFFF)) : ¬ Writable a := h
theorem not_readable_of {a : Nat} (h : ¬ a ≤ 0xFFF) : ¬ Readable a := h

theorem witness_DecodeOfEncodeIsTheInstruction :
    (Instr.drw 15 15 15).wellFormed = true ∧ (Instr.drw 0 0 0).wellFormed = true ∧
    (Instr.shr 0 15).wellFormed = true ∧ (Instr.shl 0 15).wellFormed = true ∧
    ∀ x y, Instr.cls ≠ .shr x y ∧ Instr.cls ≠ .shl x y := by decide
/-- Each clause: 8XY6 and 8XYE with Y = 0xF, their neighbour 8XY7, and other families with low nibble 6 and E. -/
theorem witness_StrictWordsEncodeBack :
    decodeWord true 0x80F6 = .ok (.shr 0 15) ∧ decodeWord true 0x80FE = .ok (.shl 0 15) ∧
    decodeWord true 0x80F7 = .ok (.subnReg 0 15) ∧ decodeWord true 0x00EE = .ok .ret ∧
    decodeWord true 0x70F6 = .ok (.addImm 0 0xF6) ∧ decodeWord true 0x5120 = .ok (.seReg 1 2) := by decide
theorem witness_DecodedWordsMatchTheirTableRow :
    decodeWord false 0x0120 = .ok .cls ∧ decodeWord true 0xFF65 = .ok (.ldRegs 15) := by decide
/-- A fetch at the last address an instruction may stand at. -/
theorem witness_StepRunsTheFetchedInstruction :
    let s := wordAt 0xFFE 0x6A42 (State.reset.setIp 0x0FFE)
    s.halt = none ∧ s.awaiting = none ∧ s.ip.toNat + 1 ≤ 0xFFF ∧
    (0x6A42 : Word).toNat = (s.mem.read s.ip.toNat).toNat * 256 + (s.mem.read (s.ip.toNat + 1)).toNat ∧
    decodeWord s.cfg.strictDecode 0x6A42 = .ok (.ldImm 0xA 0x42) := by decide
theorem witness_PlacedWordIsFetchedAndRun :
    State.reset.mem.wf ∧ 0xFF65 < 65536 ∧
    decodeWord State.reset.cfg.strictDecode (BitVec.ofNat 16 0xFF65) = .ok (.ldRegs 15) := by decide
theorem witness_FetchPastMemoryRaisesAddressError_at_0FFF :
    let s := State.reset.setIp 0x0FFF
    s.halt = none ∧ s.awaiting = none ∧ s.ip.toNat = 0xFFF := by decide
theorem witness_FetchPastMemoryRaisesAddressError_at_1000 :
    let s := State.reset.setIp 0x1000
    s.halt = none ∧ s.awaiting = none ∧ 0x1000 ≤ s.ip.toNat := by decide
theorem witness_IllegalOpcodeRaisesDecodeError :
    let s := wordAt 0 0xF090 (State.reset.setIp 0)
    s.halt = none ∧ s.awaiting = none ∧ s.ip.toNat + 1 ≤ 0xFFF ∧
    (0xF090 : Word).toNat = (s.mem.read s.ip.toNat).toNat * 256 + (s.mem.read (s.ip.toNat + 1)).toNat ∧
    decodeWord s.cfg.strictDecode 0xF090 = .error .familyF := by decide
theorem witness_HaltedMachineRunsNoCycle :
    (State.reset.setHalt (some (.loadError 3585))).halt = some (.loadError 3585) := by decide
theorem witness_WaitCycle_no_key :
    let s := State.reset.setAwaiting (some 15)
    s.halt = none ∧ s.awaiting = some 15 ∧ ∀ k, s.keys.get k = false := by decide
theorem witness_WaitCycle_some_key :
    let s := (State.reset.setAwaiting (some 2)).setKey 7 true
    s.halt = none ∧ s.awaiting = some 2 ∧ ∃ k, s.keys.get k = true := by decide
/-- RET with an empty stack, the error of section 2.7. -/
theorem witness_ErrorsArePrecise :
    let s := wordAt 0x200 0x00EE State.reset
    s.halt = none ∧ ∃ t, step s = .next t ∧ t.halt = some (.stackUnderflow 0x0200) :=
  ⟨rfl, _, rfl, by decide⟩
theorem witness_JpSetsIpToItsAddress :
    (0xFFF : Addr12) = 0xFFF ∧ State.reset.halt = none ∧ State.reset.awaiting = none := by decide
/-- V0 = 0xFF and NNN = 0xFFF, the largest sum, and V0 = 1 with NNN = 0xFFE, the least sum past 0x0FFE. -/
theorem witness_JpV0SetsIpToTheExactSum :
    (∃ t, exec (.jpV0 0xFFF) (withRegs [(0, 0xFF)]) = .next t ∧ 0x0FFE < t.ip.toNat ∧ t.ip.toNat = 0x10FE) ∧
    (∃ t, exec (.jpV0 0xFFE) (withRegs [(0, 1)]) = .next t ∧ 0x0FFE < t.ip.toNat) ∧
    (withRegs [(0, 0xFF)]).halt = none ∧ (withRegs [(0, 0xFF)]).awaiting = none :=
  ⟨⟨_, rfl, by decide, by decide⟩, ⟨_, rfl, by decide⟩, by decide, by decide⟩
theorem witness_CallSavesItsAddressAndJumps_full :
    ({ State.reset with sp := 16 } : State).sp = ({ State.reset with sp := 16 } : State).cfg.stackDepth := by decide
theorem witness_CallSavesItsAddressAndJumps_room :
    let s : State := { State.reset with sp := 15 }
    s.sp < s.cfg.stackDepth ∧ s.stack.length = s.cfg.stackDepth := by decide
theorem witness_RetResumesAfterTheSavedAddress_empty : State.reset.sp = 0 := by decide
theorem witness_RetResumesAfterTheSavedAddress_at_0FFE :
    let s := State.reset.push 0x0FFE
    0 < s.sp ∧ s.stackEntry (s.sp - 1) = 0x0FFE ∧ s.halt = none ∧ s.awaiting = none := by decide
theorem witness_RetResumesAfterTheSavedAddress_words :
    (0x0FFE : Word).toNat / 4096 = 0 ∧ (0x0FFE : Word).toNat % 16 = 0xE := by decide
theorem witness_CallThenRetResumesAfterTheCall :
    State.reset.sp < State.reset.cfg.stackDepth ∧ State.reset.stack.length = State.reset.cfg.stackDepth := by decide
theorem witness_WriteWithFlagOrdersTheTwoWrites :
    (0 : RegIdx) ≠ VF ∧ State.reset.cfg.vfOrder = .flagLast ∧
    (State.resetWith { Config.default with vfOrder := .resultLast }).cfg.vfOrder = .resultLast := by decide
/-- Both ends of the writable range. -/
theorem witness_LdBStoresThreeDecimalDigits :
    ((State.reset.setI 0x050).mem.wf ∧ ∀ a ∈ bcdAddrs (State.reset.setI 0x050), Writable a) ∧
    ((State.reset.setI 0xFFD).mem.wf ∧ ∀ a ∈ bcdAddrs (State.reset.setI 0xFFD), Writable a) :=
  ⟨⟨by decide, writable_of (by decide)⟩, ⟨by decide, writable_of (by decide)⟩⟩
theorem witness_StRegsStoresTheBlock :
    ((State.reset.setI 0x050).mem.wf ∧ ∀ a ∈ blockAddrs (State.reset.setI 0x050) 0, Writable a) ∧
    ((State.reset.setI 0xFF0).mem.wf ∧ ∀ a ∈ blockAddrs (State.reset.setI 0xFF0) 15, Writable a) :=
  ⟨⟨by decide, writable_of (by decide)⟩, ⟨by decide, writable_of (by decide)⟩⟩
theorem witness_LdRegsLoadsTheBlock :
    (∀ a ∈ blockAddrs State.reset 15, Readable a) ∧ ∀ a ∈ blockAddrs (State.reset.setI 0xFF0) 15, Readable a :=
  ⟨readable_of (by decide), readable_of (by decide)⟩
theorem witness_StoredBlockLoadsBack :
    (State.reset.setI 0xFF0).mem.wf ∧ ∀ a ∈ blockAddrs (State.reset.setI 0xFF0) 15, Writable a :=
  ⟨by decide, writable_of (by decide)⟩
/-- FX33 with I = 0xFFE and FX55 with X = 1 and I = 0xFFF fail at 0x1000 after a writable address. -/
theorem witness_StoresRaiseTheLowestFailingAddress_past_memory :
    ¬ Writable 0x1000 ∧
    (0x1000 ∈ bcdAddrs (State.reset.setI 0xFFE) ∧
      ∀ b ∈ bcdAddrs (State.reset.setI 0xFFE), b < 0x1000 → Writable b) ∧
    (0x1000 ∈ blockAddrs (State.reset.setI 0xFFF) 1 ∧
      ∀ b ∈ blockAddrs (State.reset.setI 0xFFF) 1, b < 0x1000 → Writable b) := by
  unfold Writable; decide
/-- FX33 and FX55 with I = 0x04F fail there, the last byte of the font region. -/
theorem witness_StoresRaiseTheLowestFailingAddress_font :
    ¬ Writable 0x04F ∧
    (0x04F ∈ bcdAddrs (State.reset.setI 0x04F) ∧
      ∀ b ∈ bcdAddrs (State.reset.setI 0x04F), b < 0x04F → Writable b) ∧
    (0x04F ∈ blockAddrs (State.reset.setI 0x04F) 3 ∧
      ∀ b ∈ blockAddrs (State.reset.setI 0x04F) 3, b < 0x04F → Writable b) := by
  unfold Writable; decide
theorem witness_LoadsRaiseTheLowestFailingAddress :
    ¬ Readable 0x1000 ∧
    (0x1000 ∈ blockAddrs (State.reset.setI 0xFFC) 4 ∧
      ∀ b ∈ blockAddrs (State.reset.setI 0xFFC) 4, b < 0x1000 → Readable b) ∧
    (0x1000 ∈ spriteAddrs (State.reset.setI 0xFFE) 3 ∧
      ∀ b ∈ spriteAddrs (State.reset.setI 0xFFE) 3, b < 0x1000 → Readable b) := by
  unfold Readable; decide
theorem witness_ClsMakesEveryPixelUnlit_words :
    (0x0FF0 : Word).toNat / 4096 = 0 ∧ (0x0FF0 : Word).toNat % 16 = 0 := by decide
/-- No rows, and fifteen rows that end at 0xFFF. -/
theorem witness_DrwTogglesExactlyTheCoveredPixels_readable :
    (∀ a ∈ spriteAddrs (State.reset.setI 0xFFFF) 0, Readable a) ∧
    ∀ a ∈ spriteAddrs (State.reset.setI 0xFF1) 15, Readable a := by
  unfold Readable; decide

/-- One sprite byte 0x80 at 0x300, drawn at (V0, V1) = (0, 0). -/
def dotState : State := bytesAt 0x300 [0x80] (State.reset.setI 0x0300)

theorem dotState_covers : SpriteCovers dotState 0 1 1 0 0 := 
  ⟨0, 0, by decide, by decide, by decide, by exact ⟨rfl, rfl⟩⟩
/-- A covered pixel that is lit: VF becomes 1. -/
theorem witness_DrwTogglesExactlyTheCoveredPixels_lit :
    let s := dotState.setFb (dotState.fb.toggle 0 0)
    (∀ a ∈ spriteAddrs s 1, Readable a) ∧ ∃ px py, SpriteCovers s 0 1 1 px py ∧ s.fb.pixel px py = true :=
  ⟨readable_of (by decide), 0, 0, dotState_covers, by decide⟩
/-- A blank screen: VF becomes 0. -/
theorem witness_DrawingTwiceRestoresTheScreen :
    (0 : RegIdx) ≠ VF ∧ (1 : RegIdx) ≠ VF ∧ (∀ a ∈ spriteAddrs dotState 1, Readable a) ∧
    (∀ px py, SpriteCovers dotState 0 1 1 px py → dotState.fb.pixel px py = false) ∧
    ∃ px py, SpriteCovers dotState 0 1 1 px py := by
  refine ⟨by decide, by decide, readable_of (by decide), ?_, 0, 0, dotState_covers⟩
  intro px py _
  have h : ∀ (px : Fin 64) (py : Fin 32), State.reset.fb.pixel px py = false := by
    intro px py; simp [State.reset, State.resetWith, Framebuffer.pixel, Vector.get_eq_getElem]
  exact h px py
theorem witness_KeySkipsTestTheLowNibblesKey :
    (7 : Fin 16).val = ((withRegs [(2, 0x17)]).reg 2).toNat % 16 := by decide
theorem witness_LdVxKStoresAPressedKeyOrWaits :
    (∃ k, (State.reset.setKey 15 true).keys.get k = true) ∧ ∀ k, State.reset.keys.get k = false := by decide
theorem witness_BootPlacesFontAndProgram :
    (List.replicate 3584 (0xFF : Byte)).length ≤ 3584 ∧ ([] : List Byte).length ≤ 3584 := by
  simp only [List.length_replicate, List.length_nil]; decide
theorem witness_LoadProgramCopiesOrFails :
    State.reset.halt = none ∧ State.reset.mem.wf ∧ 3584 < (List.replicate 3585 (0 : Byte)).length ∧
    (List.replicate 3584 (0 : Byte)).length ≤ 3584 := by
  simp only [List.length_replicate]; decide
/-- The timers at both ends, an empty batch and a batch of one CLS. -/
theorem witness_TickDecrementsEachNonzeroTimer :
    0 < (State.reset.setDt 1).dt.toNat ∧ (State.reset.setDt 0).dt = 0 ∧ 0 < (State.reset.setSt 255).st.toNat ∧
    (State.reset.setSt 0).st = 0 ∧ (runBatch 1 State.reset).1 = .ok ∧ State.reset.halt = none ∧
    (∃ t : State, Host.Core.run Sys2Proof.core (0 : BitVec 32).toNat State.reset = .next t ∧ t.halt = none) ∧
    ∃ t : State, Host.Core.run Sys2Proof.core (1 : BitVec 32).toNat State.reset = .next t ∧ t.halt = none :=
  ⟨by decide, by decide, by decide, by decide, by decide, rfl, ⟨_, rfl, rfl⟩, _, rfl, by decide⟩
/-- A batch that ends Ok, one whose first step raises, and one whose last does: CLS at 0x0FFC and 0x0FFE, then a fetch
past memory. -/
theorem witness_BatchResultIsItsHaltRecord :
    (runBatch 1 State.reset).1 = .ok ∧
    (runBatch 10 (wordAt 0x200 0x0123 State.reset)).1 = .err (.decodeError 0x0200 0x0123 0) ∧
    (∃ t : State, 1 ≤ (10 : BitVec 32).toNat ∧
      Host.Core.run Sys2Proof.core 1 (wordAt 0x200 0x0123 State.reset) = .next t ∧
      t.halt = some (.decodeError 0x0200 0x0123 0)) ∧
    ∃ t : State, 3 ≤ (3 : BitVec 32).toNat ∧ Host.Core.run Sys2Proof.core 3 (State.reset.setIp 0x0FFC) = .next t ∧
      t.halt = some (.addressError 0x1000 0x1000 .fetch) :=
  ⟨by decide, by decide, ⟨_, by decide, rfl, by decide⟩, _, by decide, rfl, by decide⟩
theorem witness_WaitingBatchOnlyTicks :
    let s := State.reset.setAwaiting (some 2)
    s.halt = none ∧ s.awaiting = some 2 ∧ ∀ k, s.keys.get k = false := by decide
theorem witness_FailedSessionIsFrozenUntilReset :
    (State.reset.setHalt (some (.stackUnderflow 0x0200))).halt = some (.stackUnderflow 0x0200) ∧
    HostCall.soundActive ≠ HostCall.reset := by decide
theorem witness_ResetMeetsTheInvariant : Config.default.wf := by decide

theorem reset_entries : ∀ w ∈ State.reset.stack, w.toNat ≤ 0x0FFE := by
  intro w h; rw [List.eq_of_mem_replicate h]; decide
theorem called_entries : ∀ w ∈ (State.reset.push 0x0FFE).stack, w.toNat ≤ 0x0FFE := by
  intro w h
  rcases List.mem_or_eq_of_mem_set h with h | rfl
  · exact reset_entries w h
  · decide
theorem reset_has_the_invariant : State.reset.Inv :=
  ⟨by decide, by decide, by decide, by decide, reset_entries, by decide, by decide⟩
/-- The state after reset(), a state in a call, one with the largest IP and one that waits. -/
theorem witness_StepKeepsTheInvariant :
    State.reset.Inv ∧ (State.reset.push 0x0FFE).Inv ∧ (State.reset.setIp 0x10FE).Inv ∧
    ((State.reset.setAwaiting (some 15)).setIp 0x0FFE).Inv ∧ ∃ t, step State.reset = .next t :=
  ⟨reset_has_the_invariant,
    ⟨by decide, by decide, by decide, by decide, called_entries, by decide, by decide⟩,
    ⟨by decide, by decide, by decide, by decide, reset_entries, by decide, by decide⟩,
    ⟨by decide, by decide, by decide, by decide, reset_entries, by decide, by decide⟩, _, rfl⟩
theorem witness_EveryHostRunKeepsTheInvariant : State.reset.Inv := reset_has_the_invariant
/-- FX55 at 0x050, the first address past the font. -/
theorem witness_NoStepOverwritesTheFont :
    let s := wordAt 0x200 0xF055 (State.reset.setI 0x050)
    s.mem.wf ∧ (∃ t, step s = .next t) ∧ 0x04F ≤ 0x04F := by
  refine ⟨by decide, ⟨_, rfl⟩, by decide⟩
/-- A run of every kind of call the statement admits, and a canonical memory that holds a table. -/
theorem witness_FontHoldsThroughEverySession :
    (∀ call ∈ [HostCall.loadProgram [], .runBatch 10, .setInputState 7 true, .framebufferSnapshot, .soundActive],
      call ≠ .reset ∧ ∀ table, call ≠ .loadFont table) ∧
    (boot Config.default [0x12, 0x00]).2.mem.wf ∧ FontIs Config.defaultFont (boot Config.default [0x12, 0x00]).2 :=
  ⟨by simp, by decide, by unfold FontIs; decide⟩
/-- 8014 with V0 = 0xFF and V1 = 1 changes VF, and 6F01 does as its destination. -/
theorem witness_OnlyTheListedInstructionsChangeTheFlag :
    (∃ t, exec (.addReg 0 1) (withRegs [(0, 0xFF), (1, 1)]) = .next t ∧
      t.reg VF ≠ (withRegs [(0, 0xFF), (1, 1)]).reg VF) ∧
    ∃ t, exec (.ldImm VF 1) State.reset = .next t ∧ t.reg VF ≠ State.reset.reg VF :=
  ⟨⟨_, rfl, by decide⟩, _, rfl, by decide⟩
/-- Each clause: some instruction changes a register, VF as a flag, I, IP, the stack, each timer, the pixels, memory,
AW and HALT. -/
theorem witness_EachPieceOfStateHasItsNamedWriters :
    (∃ t, exec (.ldImm 3 1) State.reset = .next t ∧ t.reg 3 ≠ State.reset.reg 3) ∧
    (∃ t, exec (.subReg 0 1) State.reset = .next t ∧ t.reg VF ≠ State.reset.reg VF) ∧
    (∃ t, exec (.ldRegs 15) (State.reset.setReg 15 1) = .next t ∧ t.reg 15 ≠ (State.reset.setReg 15 1).reg 15) ∧
    (∃ t, exec (.ldI 0x300) State.reset = .next t ∧ t.i ≠ State.reset.i) ∧
    (∃ t, exec (.jp 0xFFF) State.reset = .next t ∧ t.ip ≠ State.reset.ip + 2) ∧
    (∃ t, exec (.ldVxK 3) State.reset = .next t ∧ t.ip ≠ State.reset.ip + 2 ∧ t.awaiting ≠ State.reset.awaiting) ∧
    (∃ t, exec .ret State.reset = .next t ∧ t.ip ≠ State.reset.ip + 2 ∧ t.halt ≠ State.reset.halt) ∧
    (∃ t, exec (.call 0x300) State.reset = .next t ∧ (t.stack ≠ State.reset.stack ∨ t.sp ≠ State.reset.sp)) ∧
    (∃ t, exec (.ldDtVx 0) (withRegs [(0, 3)]) = .next t ∧ t.dt ≠ (withRegs [(0, 3)]).dt) ∧
    (∃ t, exec (.ldStVx 0) (withRegs [(0, 3)]) = .next t ∧ t.st ≠ (withRegs [(0, 3)]).st) ∧
    (∃ t, exec (.drw 0 1 1) dotState = .next t ∧ t.fb ≠ dotState.fb) ∧
    (∃ t, exec (.ldB 0) ((withRegs [(0, 3)]).setI 0x300) = .next t ∧
      t.mem ≠ ((withRegs [(0, 3)]).setI 0x300).mem) :=
  ⟨⟨_, rfl, by decide⟩, ⟨_, rfl, by decide⟩, ⟨_, rfl, by decide⟩, ⟨_, rfl, by decide⟩, ⟨_, rfl, by decide⟩,
    ⟨_, rfl, by decide, by decide⟩, ⟨_, rfl, by decide, by decide⟩, ⟨_, rfl, .inr (by decide)⟩, ⟨_, rfl, by decide⟩,
    ⟨_, rfl, by decide⟩, ⟨_, rfl, by decide⟩, _, rfl, by decide⟩
theorem witness_StepNeverWritesKeysNorRefuses : ∃ t, step State.reset = .next t := ⟨_, rfl⟩
theorem witness_HostReadsChangeNothingAndKeysAreSetAlone : State.reset.halt = none ∧ (3 : RegIdx) ≠ 7 := by decide

end Sys2Proof.Machine.Tests
end

section
/-! The conditional skips (40_control.md R103 to R106): what their words decode to, and that each is a skip on its
condition and nothing else. -/

namespace Sys2Proof

/-! ## The words of the four skips -/

theorem decodeWord_packXK_3 (strict : Bool) (x : RegIdx) (nn : Byte) :
    decodeWord strict (packXK 0x3 x nn) = .ok (.seImm x nn) := by
  rw [decodeWord_3 (fieldF_packXK x nn (by decide)), fieldX_packXK x nn (by decide), fieldNN_packXK x nn (by decide)]

theorem decodeWord_packXK_4 (strict : Bool) (x : RegIdx) (nn : Byte) :
    decodeWord strict (packXK 0x4 x nn) = .ok (.sneImm x nn) := by
  rw [decodeWord_4 (fieldF_packXK x nn (by decide)), fieldX_packXK x nn (by decide), fieldNN_packXK x nn (by decide)]

/-- The low nibble counts under STRICT_DECODE alone (30_encoding.md R76). -/
theorem decodeWord_packXYN_5 (strict : Bool) (x y : RegIdx) {n : Nat} (hn : n ≤ 15) :
    decodeWord strict (packXYN 0x5 x y n) = if strict && n != 0 then .error .family5 else .ok (.seReg x y) := by
  have hf : 0x5 ≤ 15 := by decide
  rw [decodeWord_5 (fieldF_packXYN x y hf hn), fieldN_packXYN x y hf hn, fieldX_packXYN x y hf hn,
    fieldY_packXYN x y hf hn]

/-- The low nibble counts under STRICT_DECODE alone (30_encoding.md R76). -/
theorem decodeWord_packXYN_9 (strict : Bool) (x y : RegIdx) {n : Nat} (hn : n ≤ 15) :
    decodeWord strict (packXYN 0x9 x y n) = if strict && n != 0 then .error .family9 else .ok (.sneReg x y) := by
  have hf : 0x9 ≤ 15 := by decide
  rw [decodeWord_9 (fieldF_packXYN x y hf hn), fieldN_packXYN x y hf hn, fieldX_packXYN x y hf hn,
    fieldY_packXYN x y hf hn]

namespace Machine

/-! ## The four instructions are skips -/

theorem exec_seImm_skipIf (x : RegIdx) (nn : Byte) (s : State) :
    exec (.seImm x nn) s = .next (s.skipIf (s.reg x == nn)) := rfl

theorem exec_sneImm_skipIf (x : RegIdx) (nn : Byte) (s : State) :
    exec (.sneImm x nn) s = .next (s.skipIf (s.reg x != nn)) := rfl

theorem exec_seReg_skipIf (x y : RegIdx) (s : State) :
    exec (.seReg x y) s = .next (s.skipIf (s.reg x == s.reg y)) := rfl

theorem exec_sneReg_skipIf (x y : RegIdx) (s : State) :
    exec (.sneReg x y) s = .next (s.skipIf (s.reg x != s.reg y)) := rfl

theorem Frame.of_skipIf (s : State) (c : Bool) : Frame {} s (s.skipIf c) := Frame.of_ip rfl

section
variable {i : Instr} {s : State} {c : Bool} {P : Prop} [Decidable P]

/-- An instruction that is a skip passes over one word when its test `c` says `P`. -/
theorem exec_skips_when (h : exec i s = .next (s.skipIf c)) (hc : c = true ↔ P) :
    ∃ t, exec i s = .next t ∧ t.ip = (if P then s.ip + 4 else s.ip + 2) ∧ Frame {} s t :=
  ⟨_, h, by simp only [State.skipIf_ip, hc], Frame.of_skipIf s c⟩

/-- An instruction that is a skip passes over one word when its test `c` denies `P`. -/
theorem exec_skips_unless (h : exec i s = .next (s.skipIf c)) (hc : c = true ↔ ¬ P) :
    ∃ t, exec i s = .next t ∧ t.ip = (if P then s.ip + 2 else s.ip + 4) ∧ Frame {} s t := by
  simpa only [ite_not] using exec_skips_when h hc

end

/-! ## The obligations -/

/-- Settles O18: each word decodes to its skip, and the skip's test is the statement's condition. -/
theorem immediateSkipsPassOneWord : Obligations.ImmediateSkipsPassOneWord := by
  intro x nn s
  exact ⟨fun strict => decodeWord_packXK_3 strict x nn, fun strict => decodeWord_packXK_4 strict x nn,
    exec_skips_when (exec_seImm_skipIf x nn s) beq_iff_eq, exec_skips_unless (exec_sneImm_skipIf x nn s) bne_iff_ne⟩

/-- Settles O19: the decoder's test of bits 3:0 is the statement's under either value of STRICT_DECODE, and the skip's
test is its condition. -/
theorem registerSkipsPassOneWord : Obligations.RegisterSkipsPassOneWord := by
  intro x y n s
  have hn : n.val ≤ 15 := Nat.le_of_lt_succ n.isLt
  refine ⟨decodeWord_packXYN_5 false x y hn, decodeWord_packXYN_9 false x y hn, ?_, ?_,
    exec_skips_when (exec_seReg_skipIf x y s) beq_iff_eq, exec_skips_unless (exec_sneReg_skipIf x y s) bne_iff_ne⟩
  · rw [decodeWord_packXYN_5 true x y hn]
    simp
  · rw [decodeWord_packXYN_9 true x y hn]
    simp

end Machine
end Sys2Proof
end

section
/-! The loads, the flagged arithmetic and the shifts (41_alu.md R131 to R141, R143): what their words decode to, the
results and flags as numbers, and that each is one register write or one flagged write. -/

namespace Sys2Proof

/-! ## The words -/

theorem decodesTo_packXK_6 (x : RegIdx) (nn : Byte) : Machine.DecodesTo (packXK 0x6 x nn) (.ldImm x nn) := by
  intro strict
  rw [decodeWord_6 (fieldF_packXK x nn (by decide)), fieldX_packXK x nn (by decide), fieldNN_packXK x nn (by decide)]

/-- In family 0x8 the low nibble alone selects the instruction, whatever STRICT_DECODE is (30_encoding.md R77). -/
theorem decodesTo_packXYN_8 {i : RegIdx → RegIdx → Instr} {n : Nat} (x y : RegIdx) (hn : n ≤ 15)
    (h : ∀ {op : Word}, fieldN op = n → decode8 op = .ok (i (fieldX op) (fieldY op))) :
    Machine.DecodesTo (packXYN 0x8 x y n) (i x y) := by
  have hf : 0x8 ≤ 15 := by decide
  intro strict
  rw [decodeWord_8 (fieldF_packXYN x y hf hn), h (fieldN_packXYN x y hf hn), fieldX_packXYN x y hf hn,
    fieldY_packXYN x y hf hn]

section
variable {op : Word}

theorem decode8_0 (h : fieldN op = 0x0) : decode8 op = .ok (.ldReg (fieldX op) (fieldY op)) := by
  unfold decode8; rw [h]; rfl

theorem decode8_4 (h : fieldN op = 0x4) : decode8 op = .ok (.addReg (fieldX op) (fieldY op)) := by
  unfold decode8; rw [h]; rfl

theorem decode8_5 (h : fieldN op = 0x5) : decode8 op = .ok (.subReg (fieldX op) (fieldY op)) := by
  unfold decode8; rw [h]; rfl

theorem decode8_6 (h : fieldN op = 0x6) : decode8 op = .ok (.shr (fieldX op) (fieldY op)) := by
  unfold decode8; rw [h]; rfl

theorem decode8_7 (h : fieldN op = 0x7) : decode8 op = .ok (.subnReg (fieldX op) (fieldY op)) := by
  unfold decode8; rw [h]; rfl

theorem decode8_E (h : fieldN op = 0xE) : decode8 op = .ok (.shl (fieldX op) (fieldY op)) := by
  unfold decode8; rw [h]; rfl

end

namespace Machine

/-! ## Results and flags as numbers -/

section
variable (a b : Byte)

theorem addResult_toNat : (addResult a b).toNat = (a.toNat + b.toNat) % 256 := BitVec.toNat_ofNat _ _

theorem carryFlag_toNat : (carryFlag a b).toNat = if a.toNat + b.toNat > 255 then 1 else 0 := by
  simp only [carryFlag, flagOf_toNat, decide_eq_true_eq, gt_iff_lt]

/-- The difference modulo 256, with the borrow written out. -/
theorem subResult_toNat :
    (subResult a b).toNat = if a.toNat ≥ b.toNat then a.toNat - b.toNat else 256 + a.toNat - b.toNat := by
  have ha := a.isLt
  have hb := b.isLt
  rw [subResult, BitVec.toNat_ofNat]
  split
  case isTrue noBorrow => omega
  case isFalse borrow => omega

theorem noBorrowFlag_toNat : (noBorrowFlag a b).toNat = if a.toNat ≥ b.toNat then 1 else 0 := by
  simp only [noBorrowFlag, flagOf_toNat, decide_eq_true_eq, ge_iff_le]

theorem subnFlagOf_noBorrow_toNat : (subnFlagOf .noBorrow a b).toNat = if a.toNat ≥ b.toNat then 1 else 0 :=
  noBorrowFlag_toNat a b

theorem subnFlagOf_strict_toNat : (subnFlagOf .strict a b).toNat = if a.toNat > b.toNat then 1 else 0 := by
  simp only [subnFlagOf, flagOf_toNat, decide_eq_true_eq, gt_iff_lt]

theorem shrResult_toNat : (shrResult a).toNat = a.toNat / 2 := by
  have ha := a.isLt
  rw [shrResult, BitVec.toNat_ofNat]
  omega

theorem shlResult_toNat : (shlResult a).toNat = a.toNat * 2 % 256 := BitVec.toNat_ofNat _ _

/-- A flag that is a bit of a byte is that bit of its number. -/
theorem flagOf_getLsbD_toNat (k : Nat) : (flagOf (a.getLsbD k)).toNat = a.toNat / 2 ^ k % 2 := by
  rw [flagOf_toNat, BitVec.getLsbD, Nat.testBit_eq_decide_div_mod_eq]
  rcases Nat.mod_two_eq_zero_or_one (a.toNat / 2 ^ k) with h | h <;> simp [h]

theorem shrFlag_toNat : (shrFlag a).toNat = a.toNat % 2 := by
  rw [shrFlag, flagOf_getLsbD_toNat, Nat.pow_zero, Nat.div_one]

theorem shlFlag_toNat : (shlFlag a).toNat = a.toNat / 128 := by
  have ha := a.isLt
  rw [shlFlag, flagOf_getLsbD_toNat]
  omega

end

/-! ## The instructions as one write -/

theorem exec_ldImm_setReg (x : RegIdx) (nn : Byte) (s : State) :
    exec (.ldImm x nn) s = .next (s.setReg x nn).advance := rfl

theorem exec_ldReg_setReg (x y : RegIdx) (s : State) :
    exec (.ldReg x y) s = .next (s.setReg x (s.reg y)).advance := rfl

theorem exec_addReg_writeWithFlag (x y : RegIdx) (s : State) : exec (.addReg x y) s =
    .next (writeWithFlag x (addResult (s.reg x) (s.reg y)) (carryFlag (s.reg x) (s.reg y)) s).advance := rfl

theorem exec_subReg_writeWithFlag (x y : RegIdx) (s : State) : exec (.subReg x y) s =
    .next (writeWithFlag x (subResult (s.reg x) (s.reg y)) (noBorrowFlag (s.reg x) (s.reg y)) s).advance := rfl

theorem exec_subnReg_writeWithFlag (x y : RegIdx) (s : State) : exec (.subnReg x y) s = .next
    (writeWithFlag x (subResult (s.reg y) (s.reg x)) (subnFlagOf s.cfg.subnFlag (s.reg y) (s.reg x)) s).advance := rfl

theorem exec_shr_writeWithFlag (x y : RegIdx) (s : State) :
    exec (.shr x y) s = .next (writeWithFlag x (shrResult (s.reg x)) (shrFlag (s.reg x)) s).advance := rfl

theorem exec_shl_writeWithFlag (x y : RegIdx) (s : State) :
    exec (.shl x y) s = .next (writeWithFlag x (shlResult (s.reg x)) (shlFlag (s.reg x)) s).advance := rfl

section
variable {i : Instr} {s : State} {x : RegIdx}

/-- An instruction that is one register write leaves the byte there, moves IP on and writes nothing else. -/
theorem exec_writes_register {b : Byte} (h : exec i s = .next (s.setReg x b).advance) :
    ∃ t, exec i s = .next t ∧ t.reg x = b ∧ t.ip = s.ip + 2 ∧ Frame { regs := [x] } s t :=
  ⟨_, h, s.setReg_reg_same x b, rfl, Frame.of_setReg x b s⟩

/-- An instruction that is one flagged write leaves the result and the flag by VF_ORDER, moves IP on and writes nothing
else; `r` and `f` are the numbers the result and the flag stand for. -/
theorem exec_writes_flagged {result flag : Byte} {r f : Nat}
    (h : exec i s = .next (writeWithFlag x result flag s).advance) (hr : result.toNat = r) (hf : flag.toNat = f) :
    ∃ t, exec i s = .next t ∧ FlaggedWrite x r f s t ∧ t.ip = s.ip + 2 ∧ Frame { regs := [x, VF] } s t := by
  subst hr hf
  exact ⟨_, h, FlaggedWrite.of_writeWithFlag x result flag s,
    by rw [State.advance_ip, writeWithFlag_ip], Frame.of_writeWithFlag x result flag s⟩

end

/-! ## The obligations -/

/-- Settles O20: 6XNN is one register write of the immediate. -/
theorem ldImmLoadsTheByte : Obligations.LdImmLoadsTheByte := by
  intro x nn s
  exact ⟨decodesTo_packXK_6 x nn, exec_writes_register (exec_ldImm_setReg x nn s)⟩

/-- Settles O22: 8XY0 is one register write of the byte that V[Y] held. -/
theorem ldRegCopiesTheRegister : Obligations.LdRegCopiesTheRegister := by
  intro x y s
  exact ⟨decodesTo_packXYN_8 x y (by decide) decode8_0, exec_writes_register (exec_ldReg_setReg x y s)⟩

/-- Settles O24: 8XY4 is one flagged write of the wrapped sum and the carry. -/
theorem addRegSetsTheCarryFlag : Obligations.AddRegSetsTheCarryFlag := by
  intro x y s
  exact ⟨decodesTo_packXYN_8 x y (by decide) decode8_4,
    exec_writes_flagged (exec_addReg_writeWithFlag x y s) (addResult_toNat _ _) (carryFlag_toNat _ _)⟩

/-- Settles O25: 8XY5 is one flagged write of the wrapped difference and the no-borrow flag. -/
theorem subRegSetsTheNoBorrowFlag : Obligations.SubRegSetsTheNoBorrowFlag := by
  intro x y s
  exact ⟨decodesTo_packXYN_8 x y (by decide) decode8_5,
    exec_writes_flagged (exec_subReg_writeWithFlag x y s) (subResult_toNat _ _) (noBorrowFlag_toNat _ _)⟩

/-- Settles O26: 8XY7 is one flagged write of the reversed difference; the flag by cases on SUBN_FLAG. -/
theorem subnRegSetsTheFlagByItsConvention : Obligations.SubnRegSetsTheFlagByItsConvention := by
  intro x y s
  refine ⟨decodesTo_packXYN_8 x y (by decide) decode8_7,
    exec_writes_flagged (exec_subnReg_writeWithFlag x y s) (subResult_toNat _ _) ?_⟩
  cases s.cfg.subnFlag with
  | noBorrow => exact subnFlagOf_noBorrow_toNat _ _
  | strict => exact subnFlagOf_strict_toNat _ _

/-- Settles O27: 8XY6 and 8XYE are one flagged write each, of V[X] halved or doubled and the bit that leaves it. -/
theorem shiftsMoveTheLostBitToTheFlag : Obligations.ShiftsMoveTheLostBitToTheFlag := by
  intro x y s
  exact ⟨decodesTo_packXYN_8 x y (by decide) decode8_6, decodesTo_packXYN_8 x y (by decide) decode8_E,
    exec_writes_flagged (exec_shr_writeWithFlag x y s) (shrResult_toNat _) (shrFlag_toNat _),
    exec_writes_flagged (exec_shl_writeWithFlag x y s) (shlResult_toNat _) (shlFlag_toNat _)⟩

/-- Settles O29: the registers after a flagged write by `writeWithFlag_reg`; writes to two registers commute. -/
theorem writeWithFlagOrdersTheTwoWrites : Obligations.WriteWithFlagOrdersTheTwoWrites := by
  intro x result flag s
  refine ⟨fun r hrx hrVF => ?_, fun hx => ⟨?_, ?_, State.setReg_comm s result flag hx⟩, fun hx hlast => ?_,
    fun hx hlast => ?_⟩
  · simp [writeWithFlag_reg, hrx, hrVF]
  · simp [writeWithFlag_reg, hx]
  · simp [writeWithFlag_reg, Ne.symm hx]
  · simp [writeWithFlag_reg, hx, hlast]
  · simp [writeWithFlag_reg, hx, hlast]

end Machine
end Sys2Proof
end

section
/-! The loads of the index register (42_index_memory.md R160, R162): what their words decode to, the address each loads
as a number, and that each is one write of I. -/

namespace Sys2Proof

/-! ## The words -/

theorem decodesTo_packA_A (nnn : Addr12) : Machine.DecodesTo (packA 0xA nnn) (.ldI nnn) := by
  intro strict
  rw [decodeWord_A (fieldF_packA nnn (by decide)), fieldNNN_packA nnn (by decide)]

theorem decodeF_29 {op : Word} (h : fieldNN op = 0x29) : decodeF op = .ok (.ldF (fieldX op)) := by
  unfold decodeF; rw [h]; rfl

/-- In family 0xF the low byte alone selects the instruction, whatever STRICT_DECODE is (30_encoding.md R79). -/
theorem decodesTo_packXK_F {i : RegIdx → Instr} {kk : Byte} (x : RegIdx)
    (h : ∀ {op : Word}, fieldNN op = kk → decodeF op = .ok (i (fieldX op))) :
    Machine.DecodesTo (packXK 0xF x kk) (i x) := by
  have hf : 0xF ≤ 15 := by decide
  intro strict
  rw [decodeWord_F (fieldF_packXK x kk hf), h (fieldNN_packXK x kk hf), fieldX_packXK x kk hf]

namespace Machine

/-! ## The addresses as numbers -/

theorem zext16_toNat (nnn : Addr12) : (zext16 nnn).toNat = nnn.toNat :=
  BitVec.toNat_setWidth_of_le (by decide)

theorem fontDigitOf_le (mode : FontDigit) (b : Byte) : fontDigitOf mode b ≤ 255 := by
  have hb : b.toNat < 256 := b.isLt
  cases mode with
  | lowNibble => exact (Nat.mod_le _ _).trans (Nat.le_of_lt_succ hb)
  | full => exact Nat.le_of_lt_succ hb

/-- The address of a glyph fits I: it is at most 5 * 255. -/
theorem glyphAddr_toNat (mode : FontDigit) (b : Byte) : (glyphAddr mode b).toNat = 5 * fontDigitOf mode b := by
  have hd := fontDigitOf_le mode b
  rw [glyphAddr, BitVec.toNat_ofNat]
  omega

/-! ## The instructions as one write of I -/

theorem exec_ldI_setI (nnn : Addr12) (s : State) : exec (.ldI nnn) s = .next (s.setI (zext16 nnn)).advance := rfl

theorem exec_ldF_setI (x : RegIdx) (s : State) :
    exec (.ldF x) s = .next (s.setI (glyphAddr s.cfg.fontDigit (s.reg x))).advance := rfl

/-- A write of I and IP. -/
theorem Frame.of_setI (a : Word) (s : State) : Frame { index := true } s (s.setI a).advance where
  regs _ _ := rfl
  mem _ _ := rfl
  index h := nomatch h
  stack _ := ⟨rfl, rfl⟩
  dt _ := rfl
  st _ := rfl
  fb _ := rfl
  awaiting _ := rfl
  draws _ := rfl
  keys := rfl
  halt := rfl
  cfg := rfl

/-- An instruction that is one write of I leaves the address there, moves IP on and writes nothing else; `n` is the
number the address stands for. -/
theorem exec_writes_index {i : Instr} {s : State} {a : Word} {n : Nat} (h : exec i s = .next (s.setI a).advance)
    (ha : a.toNat = n) :
    ∃ t, exec i s = .next t ∧ t.i.toNat = n ∧ t.ip = s.ip + 2 ∧ Frame { index := true } s t :=
  ⟨_, h, ha, rfl, Frame.of_setI a s⟩

/-! ## The obligations -/

/-- Settles O30: ANNN is one write of I, of the address zero-extended. -/
theorem ldISetsTheIndex : Obligations.LdISetsTheIndex := by
  intro nnn s
  exact ⟨decodesTo_packA_A nnn, exec_writes_index (exec_ldI_setI nnn s) (zext16_toNat nnn)⟩

/-- Settles O32: FX29 is one write of I, of the glyph's address; the digit by cases on FONT_DIGIT. -/
theorem ldFPointsAtTheGlyph : Obligations.LdFPointsAtTheGlyph := by
  intro x s
  refine ⟨decodesTo_packXK_F x decodeF_29, exec_writes_index (exec_ldF_setI x s) ?_⟩
  rw [glyphAddr_toNat]
  cases s.cfg.fontDigit with
  | lowNibble => rfl
  | full => rfl

end Machine
end Sys2Proof
end

section
/-! The clearing of the screen (43_display.md R191): the words that are CLS, the clear framebuffer, and that CLS is one
write of FB. -/

namespace Sys2Proof

/-! ## The words -/

/-- Under the default decode the family and the low nibble alone make a word CLS (30_encoding.md R75). -/
theorem decodeWord_false_cls {op : Word} (hf : fieldF op = 0x0) (hn : fieldN op = 0x0) :
    decodeWord false op = .ok .cls := by
  rw [decodeWord_0 hf]
  exact if_pos hn

theorem decodesTo_00E0 : Machine.DecodesTo 0x00E0 .cls := by
  intro strict
  cases strict with
  | false => exact decodeWord_false_cls rfl rfl
  | true => rfl

namespace Machine

/-! ## CLS as one write of FB -/

@[simp] theorem Framebuffer.clear_pixel (px : Fin 64) (py : Fin 32) : Framebuffer.clear.pixel px py = false := by
  simp [Framebuffer.clear, Framebuffer.pixel, Vector.get_eq_getElem]

theorem exec_cls_setFb (s : State) : exec .cls s = .next (s.setFb Framebuffer.clear).advance := rfl

/-- A write of FB and IP. -/
theorem Frame.of_setFb (f : Framebuffer) (s : State) : Frame { fb := true } s (s.setFb f).advance where
  regs _ _ := rfl
  mem _ _ := rfl
  index _ := rfl
  stack _ := ⟨rfl, rfl⟩
  dt _ := rfl
  st _ := rfl
  fb h := nomatch h
  awaiting _ := rfl
  draws _ := rfl
  keys := rfl
  halt := rfl
  cfg := rfl

/-! ## The obligation -/

/-- Settles O39: the decoder's tests of the two fields are the statement's, and CLS is one write of FB, of the clear
framebuffer. -/
theorem clsMakesEveryPixelUnlit : Obligations.ClsMakesEveryPixelUnlit := by
  refine ⟨decodesTo_00E0, fun w hf hn => ?_, fun s => ?_⟩
  · exact decodeWord_false_cls ((fieldF_eq w).trans hf) ((fieldN_eq w).trans hn)
  · exact ⟨_, exec_cls_setFb s, Framebuffer.clear_pixel, rfl, Frame.of_setFb Framebuffer.clear s⟩

end Machine
end Sys2Proof
end

section
/-! The key skips (44_input_timers.md R211, R212): what their words decode to, and that each is a skip on one key. -/

namespace Sys2Proof

/-! ## The words -/

theorem decodeE_9E {op : Word} (h : fieldNN op = 0x9E) : decodeE op = .ok (.skp (fieldX op)) := by
  unfold decodeE; rw [h]; rfl

theorem decodeE_A1 {op : Word} (h : fieldNN op = 0xA1) : decodeE op = .ok (.sknp (fieldX op)) := by
  unfold decodeE; rw [h]; rfl

/-- In family 0xE the low byte alone selects the instruction, whatever STRICT_DECODE is (30_encoding.md R78). -/
theorem decodesTo_packXK_E {i : RegIdx → Instr} {kk : Byte} (x : RegIdx)
    (h : ∀ {op : Word}, fieldNN op = kk → decodeE op = .ok (i (fieldX op))) :
    Machine.DecodesTo (packXK 0xE x kk) (i x) := by
  have hf : 0xE ≤ 15 := by decide
  intro strict
  rw [decodeWord_E (fieldF_packXK x kk hf), h (fieldNN_packXK x kk hf), fieldX_packXK x kk hf]

namespace Machine

/-! ## The two instructions are skips on one key -/

theorem keyOf_eq {b : Byte} {k : Fin 16} (h : k.val = b.toNat % 16) : keyOf b = k := Fin.ext h.symm

theorem exec_skp_skipIf (x : RegIdx) (s : State) :
    exec (.skp x) s = .next (s.skipIf (s.keys.get (keyOf (s.reg x)))) := rfl

theorem exec_sknp_skipIf (x : RegIdx) (s : State) :
    exec (.sknp x) s = .next (s.skipIf (!s.keys.get (keyOf (s.reg x)))) := rfl

/-! ## The obligation -/

/-- Settles O42: each word decodes to its skip, and the skip's test is of the key with the low nibble's number. -/
theorem keySkipsTestTheLowNibblesKey : Obligations.KeySkipsTestTheLowNibblesKey := by
  intro x s k hk
  obtain rfl : keyOf (s.reg x) = k := keyOf_eq hk
  exact ⟨decodesTo_packXK_E x decodeE_9E, decodesTo_packXK_E x decodeE_A1,
    exec_skips_when (exec_skp_skipIf x s) Iff.rfl, exec_skips_unless (exec_sknp_skipIf x s) Bool.not_iff_not⟩

end Machine
end Sys2Proof
end

section
/-! The words of every instruction (30_encoding.md R72, R74, R83): what the word of an instruction decodes to, which
instruction a word decodes to, and which words are none. -/

namespace Sys2Proof

/-! ## The remaining sub-selectors of families 0x8 and 0xF -/

section
variable {op : Word}

theorem decode8_1 (h : fieldN op = 0x1) : decode8 op = .ok (.orReg (fieldX op) (fieldY op)) := by
  unfold decode8; rw [h]; rfl

theorem decode8_2 (h : fieldN op = 0x2) : decode8 op = .ok (.andReg (fieldX op) (fieldY op)) := by
  unfold decode8; rw [h]; rfl

theorem decode8_3 (h : fieldN op = 0x3) : decode8 op = .ok (.xorReg (fieldX op) (fieldY op)) := by
  unfold decode8; rw [h]; rfl

theorem decodeF_07 (h : fieldNN op = 0x07) : decodeF op = .ok (.ldVxDt (fieldX op)) := by
  unfold decodeF; rw [h]; rfl

theorem decodeF_0A (h : fieldNN op = 0x0A) : decodeF op = .ok (.ldVxK (fieldX op)) := by
  unfold decodeF; rw [h]; rfl

theorem decodeF_15 (h : fieldNN op = 0x15) : decodeF op = .ok (.ldDtVx (fieldX op)) := by
  unfold decodeF; rw [h]; rfl

theorem decodeF_18 (h : fieldNN op = 0x18) : decodeF op = .ok (.ldStVx (fieldX op)) := by
  unfold decodeF; rw [h]; rfl

theorem decodeF_1E (h : fieldNN op = 0x1E) : decodeF op = .ok (.addI (fieldX op)) := by
  unfold decodeF; rw [h]; rfl

theorem decodeF_33 (h : fieldNN op = 0x33) : decodeF op = .ok (.ldB (fieldX op)) := by
  unfold decodeF; rw [h]; rfl

theorem decodeF_55 (h : fieldNN op = 0x55) : decodeF op = .ok (.stRegs (fieldX op)) := by
  unfold decodeF; rw [h]; rfl

theorem decodeF_65 (h : fieldNN op = 0x65) : decodeF op = .ok (.ldRegs (fieldX op)) := by
  unfold decodeF; rw [h]; rfl

end

/-! ## The words of the remaining families -/

/-- Under the default decode the family and the low nibble alone make a word RET (30_encoding.md R75). -/
theorem decodeWord_false_ret {op : Word} (hf : fieldF op = 0x0) (hn : fieldN op = 0xE) :
    decodeWord false op = .ok .ret := by
  rw [decodeWord_0 hf, decode0, if_neg (by decide), hn]
  rfl

theorem decodesTo_00EE : Machine.DecodesTo 0x00EE .ret := by
  intro strict
  cases strict with
  | false => exact decodeWord_false_ret rfl rfl
  | true => rfl

theorem decodesTo_packA_1 (nnn : Addr12) : Machine.DecodesTo (packA 0x1 nnn) (.jp nnn) := by
  intro strict
  rw [decodeWord_1 (fieldF_packA nnn (by decide)), fieldNNN_packA nnn (by decide)]

theorem decodesTo_packA_2 (nnn : Addr12) : Machine.DecodesTo (packA 0x2 nnn) (.call nnn) := by
  intro strict
  rw [decodeWord_2 (fieldF_packA nnn (by decide)), fieldNNN_packA nnn (by decide)]

theorem decodesTo_packA_B (nnn : Addr12) : Machine.DecodesTo (packA 0xB nnn) (.jpV0 nnn) := by
  intro strict
  rw [decodeWord_B (fieldF_packA nnn (by decide)), fieldNNN_packA nnn (by decide)]

theorem decodesTo_packXK_7 (x : RegIdx) (nn : Byte) : Machine.DecodesTo (packXK 0x7 x nn) (.addImm x nn) := by
  intro strict
  rw [decodeWord_7 (fieldF_packXK x nn (by decide)), fieldX_packXK x nn (by decide), fieldNN_packXK x nn (by decide)]

theorem decodesTo_packXK_C (x : RegIdx) (nn : Byte) : Machine.DecodesTo (packXK 0xC x nn) (.rnd x nn) := by
  intro strict
  rw [decodeWord_C (fieldF_packXK x nn (by decide)), fieldX_packXK x nn (by decide), fieldNN_packXK x nn (by decide)]

theorem decodesTo_packXYN_D (x y : RegIdx) {n : Nat} (hn : n ≤ 15) :
    Machine.DecodesTo (packXYN 0xD x y n) (.drw x y n) := by
  have hf : 0xD ≤ 15 := by decide
  intro strict
  rw [decodeWord_D (fieldF_packXYN x y hf hn), fieldX_packXYN x y hf hn, fieldY_packXYN x y hf hn,
    fieldN_packXYN x y hf hn]

/-! ## Decode of encode -/

/-- The word of a well-formed instruction with every operand in its field decodes to it. -/
theorem decodesTo_fieldWord {i : Instr} (hi : i.wellFormed = true) : Machine.DecodesTo (fieldWord i) i := by
  cases i with
  | cls => exact decodesTo_00E0
  | ret => exact decodesTo_00EE
  | jp nnn => exact decodesTo_packA_1 nnn
  | call nnn => exact decodesTo_packA_2 nnn
  | seImm x nn => exact fun strict => decodeWord_packXK_3 strict x nn
  | sneImm x nn => exact fun strict => decodeWord_packXK_4 strict x nn
  | seReg x y => intro strict; rw [fieldWord, decodeWord_packXYN_5 strict x y (by decide)]; simp
  | ldImm x nn => exact decodesTo_packXK_6 x nn
  | addImm x nn => exact decodesTo_packXK_7 x nn
  | ldReg x y => exact decodesTo_packXYN_8 x y (by decide) decode8_0
  | orReg x y => exact decodesTo_packXYN_8 x y (by decide) decode8_1
  | andReg x y => exact decodesTo_packXYN_8 x y (by decide) decode8_2
  | xorReg x y => exact decodesTo_packXYN_8 x y (by decide) decode8_3
  | addReg x y => exact decodesTo_packXYN_8 x y (by decide) decode8_4
  | subReg x y => exact decodesTo_packXYN_8 x y (by decide) decode8_5
  | shr x y => exact decodesTo_packXYN_8 x y (by decide) decode8_6
  | subnReg x y => exact decodesTo_packXYN_8 x y (by decide) decode8_7
  | shl x y => exact decodesTo_packXYN_8 x y (by decide) decode8_E
  | sneReg x y => intro strict; rw [fieldWord, decodeWord_packXYN_9 strict x y (by decide)]; simp
  | ldI nnn => exact decodesTo_packA_A nnn
  | jpV0 nnn => exact decodesTo_packA_B nnn
  | rnd x nn => exact decodesTo_packXK_C x nn
  | drw x y n => exact decodesTo_packXYN_D x y (of_decide_eq_true hi)
  | skp x => exact decodesTo_packXK_E x decodeE_9E
  | sknp x => exact decodesTo_packXK_E x decodeE_A1
  | ldVxDt x => exact decodesTo_packXK_F x decodeF_07
  | ldVxK x => exact decodesTo_packXK_F x decodeF_0A
  | ldDtVx x => exact decodesTo_packXK_F x decodeF_15
  | ldStVx x => exact decodesTo_packXK_F x decodeF_18
  | addI x => exact decodesTo_packXK_F x decodeF_1E
  | ldF x => exact decodesTo_packXK_F x decodeF_29
  | ldB x => exact decodesTo_packXK_F x decodeF_33
  | stRegs x => exact decodesTo_packXK_F x decodeF_55
  | ldRegs x => exact decodesTo_packXK_F x decodeF_65

/-- A word's two bytes at the head of a sequence are consumed, and the rest is left. -/
theorem decodeBytes_of_decodeWord {strict : Bool} {w : Word} {i : Instr} (rest : List Byte)
    (h : decodeWord strict w = .ok i) : decodeBytes strict (hiByte w :: loByte w :: rest) = .ok (i, rest) := by
  rw [decodeBytes, wordOfBytes_hi_lo, h]

/-- The Y of SHR and SHL is not read (41_alu.md R139, R141). -/
theorem Machine.exec_canonical (i : Instr) (s : Machine.State) : Machine.exec i.canonical s = Machine.exec i s := by
  cases i <;> rfl

/-- Settles O1: each word decodes to its instruction, the encoder's is the word of the canonical instruction, and the Y
that it puts to 0 is not read. -/
theorem decodeOfEncodeIsTheInstruction : Obligations.DecodeOfEncodeIsTheInstruction := by
  refine ⟨fun strict i rest hi => ?_, Machine.exec_canonical⟩
  have hword : decodeWord strict (fieldWord i) = .ok i := decodesTo_fieldWord hi strict
  have hencode : decodeWord strict (encode i) = .ok i.canonical :=
    decodesTo_fieldWord (i.wellFormed_canonical.trans hi) strict
  refine ⟨hword, decodeBytes_of_decodeWord rest hword, hencode, decodeBytes_of_decodeWord rest hencode, ?_, ?_, ?_⟩
  · intro hne
    rwa [Instr.canonical_of_ne (fun x y => (hne x y).1) (fun x y => (hne x y).2)] at hencode
  · rintro x y rfl
    exact hencode
  · rintro x y rfl
    exact hencode

end Sys2Proof
end

section
/-! What a word that decodes to an instruction is (30_encoding.md R74 to R83): the instruction's word with every operand
in its field, but for the bits that the default decode ignores. -/

namespace Sys2Proof

/-! ## A word put together from its fields -/

section
variable {f : Nat} {w : Word}

theorem packA_fields (h : fieldF w = f) : packA f (fieldNNN w) = w := by
  have hf := h ▸ fieldF_le w
  apply BitVec.eq_of_toNat_eq
  rw [packA_toNat _ hf, fieldNNN_toNat, ← h, fieldF_eq]
  omega

theorem packXK_fields (h : fieldF w = f) : packXK f (fieldX w) (fieldNN w) = w := by
  have hf := h ▸ fieldF_le w
  apply BitVec.eq_of_toNat_eq
  rw [packXK_toNat _ _ hf, fieldX_val, fieldNN_toNat, ← h, fieldF_eq]
  omega

theorem fieldN_le (w : Word) : fieldN w ≤ 15 := by
  rw [fieldN_eq]; omega

theorem packXYN_fields (h : fieldF w = f) : packXYN f (fieldX w) (fieldY w) (fieldN w) = w := by
  have hf := h ▸ fieldF_le w
  apply BitVec.eq_of_toNat_eq
  rw [packXYN_toNat _ _ hf (fieldN_le w), fieldX_val, fieldY_val, fieldN_eq, ← h, fieldF_eq]
  omega

end

/-! ## The families with a sub-selector -/

section
variable {w : Word} {i : Instr}

theorem decode0_strict : decode0 true w =
    if w = 0x00E0 then .ok .cls else if w = 0x00EE then .ok .ret else .error .family0 := rfl

theorem decode0_default : decode0 false w =
    if fieldN w = 0x0 then .ok .cls else if fieldN w = 0xE then .ok .ret else .error .family0 := rfl

theorem fieldWord_of_decode8 (h : decode8 w = .ok i) :
    i.wellFormed = true ∧ fieldWord i = packXYN 0x8 (fieldX w) (fieldY w) (fieldN w) := by
  unfold decode8 at h
  split at h <;> cases h <;> exact ⟨rfl, by simp only [fieldWord, *]⟩

theorem fieldWord_of_decodeE (h : decodeE w = .ok i) :
    i.wellFormed = true ∧ fieldWord i = packXK 0xE (fieldX w) (fieldNN w) := by
  unfold decodeE at h
  split_ifs at h <;> cases h <;> exact ⟨rfl, by simp only [fieldWord, *]⟩

theorem fieldWord_of_decodeF (h : decodeF w = .ok i) :
    i.wellFormed = true ∧ fieldWord i = packXK 0xF (fieldX w) (fieldNN w) := by
  unfold decodeF at h
  split_ifs at h <;> cases h <;> exact ⟨rfl, by simp only [fieldWord, *]⟩

end

/-! ## The word of a decoded instruction -/

/-- `w` is the word of `i` with every operand in its field, or one of the further words of its row that the default
decode admits. -/
def IsWordOf (strict : Bool) (w : Word) (i : Instr) : Prop :=
  i.wellFormed = true ∧ (fieldWord i = w ∨ strict = false ∧ w &&& (tableRow i).1 = (tableRow i).2)

section
variable {strict : Bool} {w : Word} {i : Instr}

theorem isWordOf_of_decode0_strict (h : decode0 true w = .ok i) : IsWordOf true w i := by
  rw [decode0_strict] at h
  split_ifs at h with hw hw' <;> cases h
  · exact ⟨rfl, .inl hw.symm⟩
  · exact ⟨rfl, .inl hw'.symm⟩

theorem isWordOf_of_decode0_default (hf : fieldF w = 0x0) (h : decode0 false w = .ok i) : IsWordOf false w i := by
  rw [fieldF_eq] at hf
  rw [decode0_default, fieldN_eq] at h
  split_ifs at h with hn hn' <;> cases h
  · exact ⟨rfl, .inr ⟨rfl, Laws.TablePattern.of_nibble hf hn (by decide)⟩⟩
  · exact ⟨rfl, .inr ⟨rfl, Laws.TablePattern.of_nibble hf hn' (by decide)⟩⟩

/-- Families 0x5 and 0x9: the low nibble is 0 or ignored (30_encoding.md R76). -/
theorem isWordOf_of_ignoredNibble {f : Nat} {r : Reject} {j : Instr} (hf : fieldF w = f)
    (hj : j.wellFormed = true) (hfield : fieldWord j = packXYN f (fieldX w) (fieldY w) 0)
    (hrow : tableRow j = (0xF000, BitVec.ofNat 16 (f * 4096)))
    (h : (if strict && fieldN w != 0 then .error r else .ok j : Except Reject Instr) = .ok i) :
    IsWordOf strict w i := by
  split_ifs at h with hn
  cases h
  cases strict with
  | false =>
    have hfamily : w.toNat / 4096 = f := fieldF_eq w ▸ hf
    have hp : (BitVec.ofNat 16 (f * 4096)).toNat = f * 4096 := by
      have := hf ▸ fieldF_le w
      rw [BitVec.toNat_ofNat]; omega
    exact ⟨hj, .inr ⟨rfl, by rw [hrow]; exact Laws.TablePattern.of_family hfamily hp⟩⟩
  | true =>
    have hn0 : fieldN w = 0 := by simpa using hn
    exact ⟨hj, .inl (by rw [hfield, ← hn0, packXYN_fields hf])⟩

/-- A family of one instruction. -/
theorem isWordOf_of_ok {j : Instr} (h : (.ok j : Except Reject Instr) = .ok i) (hj : j.wellFormed = true)
    (hw : fieldWord j = w) : IsWordOf strict w i := by
  cases h
  exact ⟨hj, .inl hw⟩

/-- Whatever decodes does so from a word of its own. -/
theorem isWordOf_of_decodeWord (h : decodeWord strict w = .ok i) : IsWordOf strict w i := by
  have hle := fieldF_le w
  interval_cases hf : fieldF w
  · -- family 0x0
    rw [decodeWord_0 hf] at h
    cases strict with
    | true => exact isWordOf_of_decode0_strict h
    | false => exact isWordOf_of_decode0_default hf h
  · exact isWordOf_of_ok ((decodeWord_1 hf).symm.trans h) rfl (packA_fields hf)
  · exact isWordOf_of_ok ((decodeWord_2 hf).symm.trans h) rfl (packA_fields hf)
  · exact isWordOf_of_ok ((decodeWord_3 hf).symm.trans h) rfl (packXK_fields hf)
  · exact isWordOf_of_ok ((decodeWord_4 hf).symm.trans h) rfl (packXK_fields hf)
  · exact isWordOf_of_ignoredNibble hf rfl rfl rfl (decodeWord_5 hf ▸ h)
  · exact isWordOf_of_ok ((decodeWord_6 hf).symm.trans h) rfl (packXK_fields hf)
  · exact isWordOf_of_ok ((decodeWord_7 hf).symm.trans h) rfl (packXK_fields hf)
  · -- family 0x8
    obtain ⟨hi, hw⟩ := fieldWord_of_decode8 (decodeWord_8 hf ▸ h)
    exact ⟨hi, .inl (hw.trans (packXYN_fields hf))⟩
  · exact isWordOf_of_ignoredNibble hf rfl rfl rfl (decodeWord_9 hf ▸ h)
  · exact isWordOf_of_ok ((decodeWord_A hf).symm.trans h) rfl (packA_fields hf)
  · exact isWordOf_of_ok ((decodeWord_B hf).symm.trans h) rfl (packA_fields hf)
  · exact isWordOf_of_ok ((decodeWord_C hf).symm.trans h) rfl (packXK_fields hf)
  · exact isWordOf_of_ok ((decodeWord_D hf).symm.trans h) (decide_eq_true (fieldN_le w)) (packXYN_fields hf)
  · -- family 0xE
    obtain ⟨hi, hw⟩ := fieldWord_of_decodeE (decodeWord_E hf ▸ h)
    exact ⟨hi, .inl (hw.trans (packXK_fields hf))⟩
  · -- family 0xF
    obtain ⟨hi, hw⟩ := fieldWord_of_decodeF (decodeWord_F hf ▸ h)
    exact ⟨hi, .inl (hw.trans (packXK_fields hf))⟩

end

/-! ## The rows of the opcode table -/

/-- The word of a well-formed instruction matches its row. -/
theorem fieldWord_tableRow {i : Instr} (hi : i.wellFormed = true) :
    fieldWord i &&& (tableRow i).1 = (tableRow i).2 := by
  have row : Laws.TablePattern.Statement i := by
    cases i with
    | cls => exact Laws.TablePattern.cls
    | ret => exact Laws.TablePattern.ret
    | jp nnn => exact Laws.TablePattern.jp nnn
    | call nnn => exact Laws.TablePattern.call nnn
    | seImm x nn => exact Laws.TablePattern.seImm x nn
    | sneImm x nn => exact Laws.TablePattern.sneImm x nn
    | seReg x y => exact Laws.TablePattern.seReg x y
    | ldImm x nn => exact Laws.TablePattern.ldImm x nn
    | addImm x nn => exact Laws.TablePattern.addImm x nn
    | ldReg x y => exact Laws.TablePattern.ldReg x y
    | orReg x y => exact Laws.TablePattern.orReg x y
    | andReg x y => exact Laws.TablePattern.andReg x y
    | xorReg x y => exact Laws.TablePattern.xorReg x y
    | addReg x y => exact Laws.TablePattern.addReg x y
    | subReg x y => exact Laws.TablePattern.subReg x y
    | shr x y => exact Laws.TablePattern.shr x y
    | subnReg x y => exact Laws.TablePattern.subnReg x y
    | shl x y => exact Laws.TablePattern.shl x y
    | sneReg x y => exact Laws.TablePattern.sneReg x y
    | ldI nnn => exact Laws.TablePattern.ldI nnn
    | jpV0 nnn => exact Laws.TablePattern.jpV0 nnn
    | rnd x nn => exact Laws.TablePattern.rnd x nn
    | drw x y n => exact Laws.TablePattern.drw x y n
    | skp x => exact Laws.TablePattern.skp x
    | sknp x => exact Laws.TablePattern.sknp x
    | ldVxDt x => exact Laws.TablePattern.ldVxDt x
    | ldVxK x => exact Laws.TablePattern.ldVxK x
    | ldDtVx x => exact Laws.TablePattern.ldDtVx x
    | ldStVx x => exact Laws.TablePattern.ldStVx x
    | addI x => exact Laws.TablePattern.addI x
    | ldF x => exact Laws.TablePattern.ldF x
    | ldB x => exact Laws.TablePattern.ldB x
    | stRegs x => exact Laws.TablePattern.stRegs x
    | ldRegs x => exact Laws.TablePattern.ldRegs x
  exact (row hi).1

/-- Settles O3: a decoded word is the word of its instruction, which matches the row, or was admitted by the row. -/
theorem decodedWordsMatchTheirTableRow : Obligations.DecodedWordsMatchTheirTableRow := by
  intro strict w i h
  obtain ⟨hi, hfield | ⟨_, hrow⟩⟩ := isWordOf_of_decodeWord h
  · exact ⟨hi, hfield ▸ fieldWord_tableRow hi⟩
  · exact ⟨hi, hrow⟩

/-! ## The encoder's word -/

/-- The bits of a packed word: N below bit 4, Y below bit 8, X and the family above. -/
theorem packXYN_getLsbD {f n b : Nat} (x y : RegIdx) (hn : n ≤ 15) (hb : b < 16) :
    (packXYN f x y n).getLsbD b =
      if b < 4 then n.testBit b else if b < 8 then y.val.testBit (b - 4) else (f * 16 + x.val).testBit (b - 8) := by
  have hpack : f * 4096 + x.val * 256 + y.val * 16 + n = 2 ^ 4 * (2 ^ 4 * (f * 16 + x.val) + y.val) + n := by omega
  rw [packXYN, BitVec.getLsbD_ofNat, hpack, Nat.testBit_two_pow_mul_add _ (by omega : n < 2 ^ 4),
    Nat.testBit_two_pow_mul_add _ y.isLt, decide_eq_true hb, Bool.true_and]
  by_cases h4 : b < 4
  · rw [if_pos h4, if_pos h4]
  · have hY : b - 4 < 4 ↔ b < 8 := by omega
    simp only [h4, if_false, hY, Nat.sub_sub]

/-- The mask 0xFF0F puts 0 in Y and keeps the other fields. -/
theorem packXYN_mask_FF0F {f n : Nat} (x y : RegIdx) (hn : n ≤ 15) : packXYN f x y n &&& 0xFF0F = packXYN f x 0 n := by
  have hmask : ∀ b : Fin 16, (0xFF0F : Word).getLsbD b.val = decide (b.val < 4 ∨ 8 ≤ b.val) := by decide
  apply BitVec.eq_of_getLsbD_eq
  intro b hb
  have hmask : (0xFF0F : Word).getLsbD b = decide (b < 4 ∨ 8 ≤ b) := hmask ⟨b, hb⟩
  rw [BitVec.getLsbD_and, hmask, packXYN_getLsbD x y hn hb, packXYN_getLsbD x 0 hn hb]
  by_cases h4 : b < 4
  · simp [h4]
  · by_cases h8 : b < 8
    · simp [h4, h8, Nat.not_le.2 h8]
    · simp [h4, h8, Nat.not_lt.1 h8]

/-- The word of SHR and SHL in the encoder's form is the word with 0 in bits 7:4. -/
theorem encode_of_8XY6_or_8XYE {w : Word} {i : Instr} (h : decodeWord true w = .ok i)
    (hw : w.toNat / 4096 = 0x8 ∧ (w.toNat % 16 = 0x6 ∨ w.toNat % 16 = 0xE)) : encode i = w &&& 0xFF0F := by
  obtain ⟨hf, hn⟩ := hw
  rw [← fieldF_eq] at hf
  rw [← fieldN_eq] at hn
  rw [← packXYN_fields hf, packXYN_mask_FF0F _ _ (fieldN_le w)]
  rw [decodeWord_8 hf] at h
  rcases hn with hn | hn
  · cases h.symm.trans (decode8_6 hn)
    rw [encode, hn]
    rfl
  · cases h.symm.trans (decode8_E hn)
    rw [encode, hn]
    rfl

/-- Every word that is no 8XY6 and no 8XYE is of an instruction that the encoder writes as it is. -/
theorem encode_of_not_8XY6_8XYE {w : Word} {i : Instr} (hi : fieldWord i = w)
    (hw : ¬ (w.toNat / 4096 = 0x8 ∧ (w.toNat % 16 = 0x6 ∨ w.toNat % 16 = 0xE))) : encode i = w := by
  rw [← fieldF_eq, ← fieldN_eq, ← hi] at hw
  rw [encode, Instr.canonical_of_ne, hi]
  · rintro x y rfl
    exact hw ⟨fieldF_packXYN x y (by decide) (by decide), .inl (fieldN_packXYN x y (by decide) (by decide))⟩
  · rintro x y rfl
    exact hw ⟨fieldF_packXYN x y (by decide) (by decide), .inr (fieldN_packXYN x y (by decide) (by decide))⟩

/-- Settles O2: under STRICT_DECODE a decoded word is the word of its instruction, and the encoder's word is another
for SHR and SHL alone, the instructions of 8XY6 and 8XYE. -/
theorem strictWordsEncodeBack : Obligations.StrictWordsEncodeBack := by
  intro w i h
  obtain ⟨hi, hfield | ⟨hstrict, _⟩⟩ := isWordOf_of_decodeWord h
  · exact ⟨hi, hfield, encode_of_8XY6_or_8XYE h, encode_of_not_8XY6_8XYE hfield⟩
  · cases hstrict

/-! ## The illegal words -/

section
variable {w : Word}

theorem decode0_strict_illegal : (∃ r, decode0 true w = .error r) ↔ w.toNat ≠ 0x00E0 ∧ w.toNat ≠ 0x00EE := by
  have hE0 : w.toNat = 0x00E0 ↔ w = 0x00E0 := BitVec.toNat_inj (y := 0x00E0)
  have hEE : w.toNat = 0x00EE ↔ w = 0x00EE := BitVec.toNat_inj (y := 0x00EE)
  rw [decode0_strict, ne_eq, ne_eq, hE0, hEE]
  split_ifs <;> simp_all

theorem decode0_default_illegal : (∃ r, decode0 false w = .error r) ↔ fieldN w ≠ 0x0 ∧ fieldN w ≠ 0xE := by
  rw [decode0_default]
  split_ifs <;> simp_all

/-- Families 0x5 and 0x9: a low nibble that is not 0 is illegal under STRICT_DECODE alone (30_encoding.md R76). -/
theorem ignoredNibble_illegal {strict : Bool} {i : Instr} {r : Reject} :
    (∃ r', (if strict && fieldN w != 0 then .error r else .ok i : Except Reject Instr) = .error r') ↔
      strict = true ∧ fieldN w ≠ 0 := by
  split_ifs <;> simp_all

theorem decode8_illegal : (∃ r, decode8 w = .error r) ↔ fieldN w ∈ [0x8, 0x9, 0xA, 0xB, 0xC, 0xD, 0xF] := by
  have hn := fieldN_le w
  unfold decode8
  interval_cases fieldN w <;> simp

theorem decodeE_illegal : (∃ r, decodeE w = .error r) ↔ fieldNN w ∉ [0x9E, 0xA1] := by
  unfold decodeE
  split_ifs <;> simp_all

theorem decodeF_illegal : (∃ r, decodeF w = .error r) ↔
    fieldNN w ∉ [0x07, 0x0A, 0x15, 0x18, 0x1E, 0x29, 0x33, 0x55, 0x65] := by
  unfold decodeF
  split_ifs <;> simp_all

/-- A byte is among listed bytes exactly when its number is among their numbers. -/
theorem fieldNN_mem {l : List Byte} : fieldNN w ∈ l ↔ w.toNat % 256 ∈ l.map BitVec.toNat := by
  rw [← fieldNN_toNat, List.mem_map_of_injective (fun _ _ => BitVec.eq_of_toNat_eq)]

end

/-- Settles O4: family by family, the illegal words of the families that have some. -/
theorem illegalWordsAreExactlyTheListedOnes : Obligations.IllegalWordsAreExactlyTheListedOnes := by
  intro strict w
  have hle := fieldF_le w
  rw [← fieldF_eq, ← fieldN_eq]
  interval_cases hf : fieldF w
  · -- family 0x0
    rw [decodeWord_0 hf]
    cases strict with
    | true => simp [decode0_strict_illegal]
    | false => simp [decode0_default_illegal]
  · simp [decodeWord_1 hf]
  · simp [decodeWord_2 hf]
  · simp [decodeWord_3 hf]
  · simp [decodeWord_4 hf]
  · rw [decodeWord_5 hf, ignoredNibble_illegal]
    simp
  · simp [decodeWord_6 hf]
  · simp [decodeWord_7 hf]
  · simp [decodeWord_8 hf, decode8_illegal]
  · rw [decodeWord_9 hf, ignoredNibble_illegal]
    simp
  · simp [decodeWord_A hf]
  · simp [decodeWord_B hf]
  · simp [decodeWord_C hf]
  · simp [decodeWord_D hf]
  · rw [decodeWord_E hf, decodeE_illegal, fieldNN_mem]
    simp
  · rw [decodeWord_F hf, decodeF_illegal, fieldNN_mem]
    simp

/-- Settles O5: each word by the decoder's evaluation. -/
theorem writtenOutWordsDecode : Obligations.WrittenOutWordsDecode := by
  unfold Obligations.WrittenOutWordsDecode
  decide

end Sys2Proof
end

section
/-! The cycle (30_encoding.md R90): what a step does once the fetch is known, and the wait cycle. -/

namespace Sys2Proof.Machine

/-! ## A step by its fetch -/

section
variable {s : State}

theorem step_of_fetched {i : Instr} (hh : s.halt = none) (ha : s.awaiting = none) (hf : fetchInstr s = .ok i) :
    step s = exec i s := by
  rw [step_running hh ha, hf]

theorem step_of_fetch_error {e : Error} (hh : s.halt = none) (ha : s.awaiting = none)
    (hf : fetchInstr s = .error e) : step s = .next { s with halt := some e } := by
  rw [step_running hh ha, hf]
  rfl

/-- A word is the fetched one when its number is that of the two bytes, the byte at IP first. -/
theorem fetchedWord_eq {w : Word}
    (hw : w.toNat = (s.mem.read s.ip.toNat).toNat * 256 + (s.mem.read (s.ip.toNat + 1)).toNat) :
    wordOfBytes (s.mem.read s.ip.toNat) (s.mem.read (s.ip.toNat + 1)) = w :=
  BitVec.eq_of_toNat_eq ((wordOfBytes_toNat _ _).trans hw.symm)

theorem fetchInstr_of_legal {w : Word} {i : Instr} (hip : s.ip.toNat + 1 ≤ 0xFFF)
    (hw : wordOfBytes (s.mem.read s.ip.toNat) (s.mem.read (s.ip.toNat + 1)) = w)
    (hd : decodeWord s.cfg.strictDecode w = .ok i) : fetchInstr s = .ok i := by
  rw [fetchInstr_inside hip, hw, hd]

theorem fetchInstr_of_illegal {w : Word} {r : Reject} (hip : s.ip.toNat + 1 ≤ 0xFFF)
    (hw : wordOfBytes (s.mem.read s.ip.toNat) (s.mem.read (s.ip.toNat + 1)) = w)
    (hd : decodeWord s.cfg.strictDecode w = .error r) : fetchInstr s = .error (decodeErrorAt s.ip w) := by
  rw [fetchInstr_inside hip, hw, hd]

/-- A fetch at 0xFFF fails at the second byte of the pair. -/
theorem step_at_FFF (hh : s.halt = none) (ha : s.awaiting = none) (hip : s.ip.toNat = 0xFFF) :
    step s = .next { s with halt := some (.addressError s.ip 0x1000 .fetch) } := by
  refine step_of_fetch_error hh ha ?_
  rw [fetchInstr_outside (by omega), hip]
  rfl

/-- A fetch past memory fails at the first byte of the pair. -/
theorem step_past_memory (hh : s.halt = none) (ha : s.awaiting = none) (hip : 0x1000 ≤ s.ip.toNat) :
    step s = .next { s with halt := some (.addressError s.ip s.ip.toNat .fetch) } := by
  refine step_of_fetch_error hh ha ?_
  rw [fetchInstr_outside (by omega), if_neg (by omega)]

end

/-- Settles O6: the two bytes are the fetched word, and the fetched instruction is run. -/
theorem stepRunsTheFetchedInstruction : Obligations.StepRunsTheFetchedInstruction := by
  intro s w i hh ha hip hw hd
  exact step_of_fetched hh ha (fetchInstr_of_legal hip (fetchedWord_eq hw) hd)

/-- Settles O8: the fetch's check of the pair, by where IP stands. -/
theorem fetchPastMemoryRaisesAddressError : Obligations.FetchPastMemoryRaisesAddressError := by
  intro s hh ha
  exact ⟨step_at_FFF hh ha, step_past_memory hh ha⟩

/-- Settles O9: the two bytes are the fetched word, whose decode raises. -/
theorem illegalOpcodeRaisesDecodeError : Obligations.IllegalOpcodeRaisesDecodeError := by
  intro s w r hh ha hip hw hd
  exact step_of_fetch_error hh ha (fetchInstr_of_illegal hip (fetchedWord_eq hw) hd)

/-- Settles O10: the step looks at HALT first. -/
theorem haltedMachineRunsNoCycle : Obligations.HaltedMachineRunsNoCycle := by
  intro s e hh
  exact step_halted hh

/-! ## A word placed at IP -/

/-- The address a word is placed at leaves room for both of its bytes. -/
theorem placeOpcode_ip_lt (s : State) (op : Word) : (placeOpcode s op).ip.toNat + 1 ≤ 0xFFF := by
  simp only [placeOpcode]
  split
  · simp only [memSize] at *
    omega
  · decide

theorem placeOpcode_mem (s : State) (op : Word) : (placeOpcode s op).mem =
    (s.mem.write (placeOpcode s op).ip.toNat (hiByte op)).write ((placeOpcode s op).ip.toNat + 1) (loByte op) := rfl

/-- The two bytes at the placed word's address are the word's. -/
theorem placeOpcode_fetchedWord {s : State} (op : Word) (hm : s.mem.wf) :
    wordOfBytes ((placeOpcode s op).mem.read (placeOpcode s op).ip.toNat)
      ((placeOpcode s op).mem.read ((placeOpcode s op).ip.toNat + 1)) = op := by
  have hhi := Memory.write_sorted (placeOpcode s op).ip.toNat (hiByte op) hm.sorted
  rw [placeOpcode_mem, Memory.read_write_same _ _ hhi, Memory.read_write_other _ hhi (by omega),
    Memory.read_write_same _ _ hm.sorted, wordOfBytes_hi_lo]

/-- Settles O7: the placed word is what the fetch reads. -/
theorem placedWordIsFetchedAndRun : Obligations.PlacedWordIsFetchedAndRun := by
  intro s w i hm hw hd
  have hword : tableWord 16 w = BitVec.ofNat 16 w := by rw [tableWord, Nat.mod_eq_of_lt (show w < 2 ^ 16 from hw)]
  rw [State.withFetchWord, hword]
  exact step_of_fetched rfl rfl (fetchInstr_of_legal (placeOpcode_ip_lt s _) (placeOpcode_fetchedWord _ hm) hd)

/-! ## The key wait -/

theorem keyByte_toNat (k : RegIdx) : (keyByte k).toNat = k.val := by
  have := k.isLt
  rw [keyByte, BitVec.toNat_ofNat]
  omega

theorem drawnKey_some {s : State} (h : ∃ k, s.keys.get k = true) : ∃ k, drawnKey s = some k := by
  obtain ⟨k, hk⟩ := h
  rw [← Option.isSome_iff_exists, Option.isSome_iff_ne_none, Ne, drawnKey_none]
  intro hnone
  exact Bool.false_ne_true ((hnone k).symm.trans hk)

/-- A register write, IP and a draw. -/
theorem Frame.of_setReg_nextDraw (x : RegIdx) (b : Byte) (s : State) :
    Frame { regs := [x], draws := true } s (s.setReg x b).advance.nextDraw where
  regs _ hr := State.setReg_reg_other s _ (List.mem_singleton.not.1 hr)
  mem _ _ := rfl
  index _ := rfl
  stack _ := ⟨rfl, rfl⟩
  dt _ := rfl
  st _ := rfl
  fb _ := rfl
  awaiting _ := rfl
  draws h := nomatch h
  keys := rfl
  halt := rfl
  cfg := rfl

theorem Frame.of_storeKey (x k : RegIdx) (s : State) : Frame { regs := [x], draws := true } s (storeKey x k s) :=
  Frame.of_setReg_nextDraw x (keyByte k) s

theorem storeKey_reg (x k : RegIdx) (s : State) : (storeKey x k s).reg x = keyByte k := s.setReg_reg_same x _

/-- A frame that leaves AW alone, and a write of AW after it. -/
theorem Frame.setAwaiting {w : Writes} {s t : State} (h : Frame w s t) (a : Option RegIdx) :
    Frame { w with awaiting := true } s (t.setAwaiting a) where
  regs := h.regs
  mem := h.mem
  index := h.index
  stack := h.stack
  dt := h.dt
  st := h.st
  fb := h.fb
  awaiting h := nomatch h
  draws := h.draws
  keys := h.keys
  halt := h.halt
  cfg := h.cfg

section
variable {s : State} {r : RegIdx}

theorem waitCycle_of_no_key (hk : ∀ k, s.keys.get k = false) : waitCycle r s = .next s := by
  rw [waitCycle, drawnKey_none.2 hk]

theorem waitCycle_of_key {k : RegIdx} (hk : drawnKey s = some k) :
    waitCycle r s = .next ((storeKey r k s).setAwaiting none) := by
  rw [waitCycle, hk]

theorem exec_ldVxK_of_no_key (hk : ∀ k, s.keys.get k = false) :
    exec (.ldVxK r) s = .next (s.setAwaiting (some r)) := by
  rw [exec, execLdVxK, drawnKey_none.2 hk]

theorem exec_ldVxK_of_key {k : RegIdx} (hk : drawnKey s = some k) : exec (.ldVxK r) s = .next (storeKey r k s) := by
  rw [exec, execLdVxK, hk]

end

/-- Settles O11: a wait cycle is FX0A's store of a drawn key and the clearing of AW, or nothing. -/
theorem waitCycleStoresAPressedKeyOrChangesNothing : Obligations.WaitCycleStoresAPressedKeyOrChangesNothing := by
  intro s r hh ha
  rw [step_waiting hh ha]
  refine ⟨waitCycle_of_no_key, fun hpressed => ?_⟩
  obtain ⟨k, hk⟩ := drawnKey_some hpressed
  refine ⟨_, k, waitCycle_of_key hk, drawnKey_pressed hk, ?_, rfl, rfl, (Frame.of_storeKey r k s).setAwaiting none⟩
  rw [State.setAwaiting_reg, storeKey_reg, keyByte_toNat]

/-- Settles O43: FX0A stores a drawn key, or sets AW. -/
theorem ldVxKStoresAPressedKeyOrWaits : Obligations.LdVxKStoresAPressedKeyOrWaits := by
  intro x s
  refine ⟨decodesTo_packXK_F x decodeF_0A, fun hpressed => ?_, exec_ldVxK_of_no_key⟩
  obtain ⟨k, hk⟩ := drawnKey_some hpressed
  refine ⟨_, k, exec_ldVxK_of_key hk, drawnKey_pressed hk, ?_, rfl, Frame.of_storeKey x k s⟩
  rw [storeKey_reg, keyByte_toNat]

end Sys2Proof.Machine
end

section
/-! Control transfer (40_control.md R100 to R102, R107), and the loads and timer transfers that are one register write
or one write of a timer (41_alu.md R132, R134 to R136, R142; 42_index_memory.md R161; 44_input_timers.md R215 to
R217). -/

namespace Sys2Proof.Machine

/-! ## Jumps -/

theorem exec_jp_setIp (nnn : Addr12) (s : State) : exec (.jp nnn) s = .next (s.setIp (zext16 nnn)) := rfl

theorem exec_jpV0_setIp (nnn : Addr12) (s : State) :
    exec (.jpV0 nnn) s = .next (s.setIp (offsetTarget nnn (s.reg 0))) := rfl

theorem Frame.of_setIp (a : Word) (s : State) : Frame {} s (s.setIp a) := Frame.of_ip rfl

/-- The sum of a 12-bit address and a byte is at most 0x10FE, so that it fits IP. -/
theorem offsetTarget_toNat (nnn : Addr12) (b : Byte) : (offsetTarget nnn b).toNat = nnn.toNat + b.toNat := by
  have := nnn.isLt
  have := b.isLt
  rw [offsetTarget, BitVec.toNat_ofNat]
  omega

theorem offsetTarget_le (nnn : Addr12) (b : Byte) : (offsetTarget nnn b).toNat ≤ 0x10FE := by
  have := nnn.isLt
  have := b.isLt
  rw [offsetTarget_toNat]
  omega

/-- Settles O13: 1NNN is one write of IP, and a fetch at 0xFFF fails. -/
theorem jpSetsIpToItsAddress : Obligations.JpSetsIpToItsAddress := by
  intro nnn s
  refine ⟨decodesTo_packA_1 nnn, _, exec_jp_setIp nnn s, zext16_toNat nnn, Frame.of_setIp _ s, ?_⟩
  rintro rfl hh ha
  exact step_at_FFF hh ha rfl

/-- Settles O14: BNNN is one write of IP, and a fetch above 0x0FFE fails. -/
theorem jpV0SetsIpToTheExactSum : Obligations.JpV0SetsIpToTheExactSum := by
  intro nnn s
  refine ⟨decodesTo_packA_B nnn, _, exec_jpV0_setIp nnn s, offsetTarget_toNat nnn _, offsetTarget_le nnn _,
    Frame.of_setIp _ s, ?_⟩
  intro hip hh ha
  rcases Nat.eq_or_lt_of_le (Nat.succ_le_of_lt hip) with hFFF | hpast
  · exact ⟨0x1000, step_at_FFF hh ha hFFF.symm⟩
  · exact ⟨_, step_past_memory hh ha hpast⟩

/-! ## Calls and returns -/

section
variable {s : State}

theorem exec_call_overflow (nnn : Addr12) (h : s.sp = s.cfg.stackDepth) :
    exec (.call nnn) s = .next (s.setHalt (some (.stackOverflow s.ip))) := by
  rw [exec, execCall, if_pos h]
  rfl

theorem exec_call_push (nnn : Addr12) (h : s.sp ≠ s.cfg.stackDepth) :
    exec (.call nnn) s = .next ((s.push s.ip).setIp (zext16 nnn)) := by
  rw [exec, execCall, if_neg h]

theorem exec_ret_underflow (h : s.sp = 0) : exec .ret s = .next (s.setHalt (some (.stackUnderflow s.ip))) := by
  rw [exec, execRet, if_pos h]
  rfl

theorem exec_ret_pop (h : s.sp ≠ 0) : exec .ret s = .next (s.pop.setIp (s.stackEntry (s.sp - 1) + 2)) := by
  rw [exec, execRet, if_neg h]

end

/-- An instruction that writes the stack and IP alone. -/
theorem Frame.of_stack {s t : State} (ht : t = { s with stack := t.stack, sp := t.sp, ip := t.ip }) :
    Frame { stack := true } s t := by
  rw [ht]
  exact ⟨fun _ _ => rfl, fun _ _ => rfl, fun _ => rfl, nofun, fun _ => rfl, fun _ => rfl, fun _ => rfl,
    fun _ => rfl, fun _ => rfl, rfl, rfl, rfl⟩

/-- Settles O15: CALL raises at full depth and is a push and a jump otherwise. -/
theorem callSavesItsAddressAndJumps : Obligations.CallSavesItsAddressAndJumps := by
  intro nnn s
  refine ⟨decodesTo_packA_2 nnn, exec_call_overflow nnn, fun hroom hlen => ?_⟩
  exact ⟨_, exec_call_push nnn (Nat.ne_of_lt hroom), s.push_stackEntry_top s.ip (hlen ▸ hroom), rfl, zext16_toNat nnn,
    fun k hk => s.push_stackEntry_other s.ip hk, Frame.of_stack rfl⟩

/-- Settles O16: RET raises on an empty stack and is a pop and a jump otherwise, to 0x1000 from a saved 0x0FFE. -/
theorem retResumesAfterTheSavedAddress : Obligations.RetResumesAfterTheSavedAddress := by
  refine ⟨decodesTo_00EE, fun w hf hn => ?_, fun s => ⟨exec_ret_underflow, fun hsp => ?_⟩⟩
  · exact decodeWord_false_ret ((fieldF_eq w).trans hf) ((fieldN_eq w).trans hn)
  · refine ⟨_, exec_ret_pop (Nat.ne_of_gt hsp), rfl, rfl, rfl, Frame.of_stack rfl, fun hentry hh ha => ?_⟩
    rw [hentry]
    exact step_past_memory hh ha (Nat.le_refl 0x1000)

/-- Settles O17: the return pops the entry that the call pushed. -/
theorem callThenRetResumesAfterTheCall : Obligations.CallThenRetResumesAfterTheCall := by
  intro nnn s hroom hlen
  refine ⟨_, _, exec_call_push nnn (Nat.ne_of_lt hroom), exec_ret_pop (Nat.succ_ne_zero s.sp), ?_, rfl,
    fun k hk => s.push_stackEntry_other s.ip (Nat.ne_of_lt hk), Frame.of_stack rfl⟩
  exact congrArg (· + 2) (s.push_stackEntry_top s.ip (hlen ▸ hroom))

/-! ## Arithmetic and logic without a flag -/

theorem exec_addImm_setReg (x : RegIdx) (nn : Byte) (s : State) :
    exec (.addImm x nn) s = .next (s.setReg x (addResult (s.reg x) nn)).advance := rfl

theorem exec_orReg_setReg (x y : RegIdx) (s : State) :
    exec (.orReg x y) s = .next (s.setReg x (s.reg x ||| s.reg y)).advance := rfl

theorem exec_andReg_setReg (x y : RegIdx) (s : State) :
    exec (.andReg x y) s = .next (s.setReg x (s.reg x &&& s.reg y)).advance := rfl

theorem exec_xorReg_setReg (x y : RegIdx) (s : State) :
    exec (.xorReg x y) s = .next (s.setReg x (s.reg x ^^^ s.reg y)).advance := rfl

/-- Settles O21: 7XNN is one register write of the wrapped sum. -/
theorem addImmWrapsAndWritesNoFlag : Obligations.AddImmWrapsAndWritesNoFlag := by
  intro x nn s
  obtain ⟨t, ht, hreg, hip, hframe⟩ := exec_writes_register (exec_addImm_setReg x nn s)
  exact ⟨decodesTo_packXK_7 x nn, t, ht, hreg ▸ addResult_toNat _ _, hip, hframe⟩

/-- Settles O23: 8XY1, 8XY2 and 8XY3 are one register write each, of the bits combined. -/
theorem logicOpsCombineBitsAndWriteNoFlag : Obligations.LogicOpsCombineBitsAndWriteNoFlag := by
  intro x y s
  obtain ⟨t, ht, hor, hipt, hframet⟩ := exec_writes_register (exec_orReg_setReg x y s)
  obtain ⟨u, hu, hand, hipu, hframeu⟩ := exec_writes_register (exec_andReg_setReg x y s)
  obtain ⟨v, hv, hxor, hipv, hframev⟩ := exec_writes_register (exec_xorReg_setReg x y s)
  exact ⟨decodesTo_packXYN_8 x y (by decide) decode8_1, decodesTo_packXYN_8 x y (by decide) decode8_2,
    decodesTo_packXYN_8 x y (by decide) decode8_3,
    ⟨t, ht, fun b => hor ▸ BitVec.getLsbD_or, hipt, hframet⟩,
    ⟨u, hu, fun b => hand ▸ BitVec.getLsbD_and, hipu, hframeu⟩,
    ⟨v, hv, fun b => hxor ▸ BitVec.getLsbD_xor, hipv, hframev⟩⟩

/-! ## The random byte -/

theorem exec_rnd_setReg (x : RegIdx) (nn : Byte) (s : State) :
    exec (.rnd x nn) s = .next (s.setReg x (Config.drawByte s.draws &&& nn)).advance.nextDraw := rfl

/-- Settles O28: CXNN is one register write of the drawn byte under its mask. -/
theorem rndLoadsTheMaskedDraw : Obligations.RndLoadsTheMaskedDraw := by
  intro x nn s
  have hreg : (s.setReg x (Config.drawByte s.draws &&& nn)).advance.nextDraw.reg x = Config.drawByte s.draws &&& nn :=
    s.setReg_reg_same x _
  refine ⟨decodesTo_packXK_C x nn, _, exec_rnd_setReg x nn s, hreg, fun b hb => ?_, rfl, rfl,
    Frame.of_setReg_nextDraw x _ s⟩
  rw [hreg, BitVec.getLsbD_and, hb, Bool.and_false]

/-! ## The sum in I, and the timers -/

theorem exec_addI_setI (x : RegIdx) (s : State) :
    exec (.addI x) s = .next (s.setI (indexSum s.i (s.reg x))).advance := rfl

theorem indexSum_toNat (i : Word) (b : Byte) : (indexSum i b).toNat = (i.toNat + b.toNat) % 65536 :=
  BitVec.toNat_ofNat _ _

/-- Settles O31: FX1E is one write of I, of the wrapped sum. -/
theorem addIWrapsAtSixteenBits : Obligations.AddIWrapsAtSixteenBits := by
  intro x s
  exact ⟨decodesTo_packXK_F x decodeF_1E, exec_writes_index (exec_addI_setI x s) (indexSum_toNat _ _)⟩

theorem exec_ldVxDt_setReg (x : RegIdx) (s : State) : exec (.ldVxDt x) s = .next (s.setReg x s.dt).advance := rfl

theorem exec_ldDtVx_setDt (x : RegIdx) (s : State) : exec (.ldDtVx x) s = .next (s.setDt (s.reg x)).advance := rfl

theorem exec_ldStVx_setSt (x : RegIdx) (s : State) : exec (.ldStVx x) s = .next (s.setSt (s.reg x)).advance := rfl

/-- A write of DT and IP. -/
theorem Frame.of_setDt (b : Byte) (s : State) : Frame { dt := true } s (s.setDt b).advance :=
  ⟨fun _ _ => rfl, fun _ _ => rfl, fun _ => rfl, fun _ => ⟨rfl, rfl⟩, nofun, fun _ => rfl, fun _ => rfl,
    fun _ => rfl, fun _ => rfl, rfl, rfl, rfl⟩

/-- A write of ST and IP. -/
theorem Frame.of_setSt (b : Byte) (s : State) : Frame { st := true } s (s.setSt b).advance :=
  ⟨fun _ _ => rfl, fun _ _ => rfl, fun _ => rfl, fun _ => ⟨rfl, rfl⟩, fun _ => rfl, nofun, fun _ => rfl,
    fun _ => rfl, fun _ => rfl, rfl, rfl, rfl⟩

/-- Settles O44: FX07 is one register write, FX15 and FX18 are one write of their timer each. -/
theorem timerTransfersMoveTheirByte : Obligations.TimerTransfersMoveTheirByte := by
  intro x s
  exact ⟨decodesTo_packXK_F x decodeF_07, decodesTo_packXK_F x decodeF_15, decodesTo_packXK_F x decodeF_18,
    exec_writes_register (exec_ldVxDt_setReg x s),
    ⟨_, exec_ldDtVx_setDt x s, rfl, rfl, Frame.of_setDt _ s⟩,
    ⟨_, exec_ldStVx_setSt x s, rfl, rfl, Frame.of_setSt _ s⟩⟩

end Sys2Proof.Machine
end

section
/-! Memory transfer (42_index_memory.md R163 to R165; 20_memory.md R53, R54, R58, R59): what an instruction with checks
does when they pass and when one fails, and the blocks that FX33, FX55 and FX65 move. -/

namespace Sys2Proof.Machine

/-! ## Checks that pass, and the lowest that fails -/

theorem Writable.readable {a : Nat} (h : Writable a) : Readable a := h.2

theorem checkWrite_writable {ip : Word} {a : Nat} : checkWrite ip a = none ↔ Writable a := checkWrite_none

theorem checkRead_readable {ip : Word} {a : Nat} : checkRead ip a = none ↔ Readable a := checkRead_none

theorem checkWrite_of_not_writable {ip : Word} {a : Nat} (h : ¬ Writable a) :
    checkWrite ip a = some (writeErrorAt ip a) := by
  unfold checkWrite writeErrorAt
  by_cases hpast : 0x1000 ≤ a
  · rw [if_pos hpast]
    exact if_pos hpast
  · have hfont : a < fontEnd := Nat.lt_of_not_le fun hle => h ⟨hle, Nat.le_of_lt_succ (Nat.lt_of_not_le hpast)⟩
    rw [if_neg hpast, if_pos hfont]
    exact if_neg hpast

theorem checkRead_of_not_readable {ip : Word} {a : Nat} (h : ¬ Readable a) :
    checkRead ip a = some (.addressError ip a .read) := if_pos (Nat.lt_of_not_le h)

section
variable {s t : State}

theorem afterChecks_writable {addrs : List Nat} (h : ∀ a ∈ addrs, Writable a) :
    afterChecks (firstFailure (checkWrite s.ip) addrs) s t = .next t := by
  rw [firstFailure_none.2 fun a ha => checkWrite_writable.2 (h a ha)]
  rfl

theorem afterChecks_readable {addrs : List Nat} (h : ∀ a ∈ addrs, Readable a) :
    afterChecks (firstFailure (checkRead s.ip) addrs) s t = .next t := by
  rw [firstFailure_none.2 fun a ha => checkRead_readable.2 (h a ha)]
  rfl

variable {base n a : Nat}

theorem afterChecks_not_writable (hw : ¬ Writable a) (ha : a ∈ accessRange base n)
    (hlow : ∀ b ∈ accessRange base n, b < a → Writable b) :
    afterChecks (firstFailure (checkWrite s.ip) (accessRange base n)) s t =
      .next { s with halt := some (writeErrorAt s.ip a) } := by
  rw [firstFailure_lowest ha (checkWrite_of_not_writable hw) fun b hb hba => checkWrite_writable.2 (hlow b hb hba)]
  rfl

theorem afterChecks_not_readable (hr : ¬ Readable a) (ha : a ∈ accessRange base n)
    (hlow : ∀ b ∈ accessRange base n, b < a → Readable b) :
    afterChecks (firstFailure (checkRead s.ip) (accessRange base n)) s t =
      .next { s with halt := some (.addressError s.ip a .read) } := by
  rw [firstFailure_lowest ha (checkRead_of_not_readable hr) fun b hb hba => checkRead_readable.2 (hlow b hb hba)]
  rfl

end

/-- Settles O37: the first failing check of an ascending range is that of its lowest failing address. -/
theorem storesRaiseTheLowestFailingAddress : Obligations.StoresRaiseTheLowestFailingAddress := by
  intro x s a hw
  exact ⟨afterChecks_not_writable hw, afterChecks_not_writable hw⟩

/-- Settles O38: the first failing check of an ascending range is that of its lowest failing address. -/
theorem loadsRaiseTheLowestFailingAddress : Obligations.LoadsRaiseTheLowestFailingAddress := by
  intro x y n s a hr
  exact ⟨afterChecks_not_readable hr, afterChecks_not_readable hr⟩

/-! ## The three instructions when their checks pass -/

section
variable {x : RegIdx} {s : State}

theorem exec_ldB_of_writable (h : ∀ a ∈ bcdAddrs s, Writable a) :
    exec (.ldB x) s = .next (s.setMem (s.mem.storeBytes s.i.toNat (bcdDigits (s.reg x)))).advance :=
  afterChecks_writable h

theorem exec_stRegs_of_writable (h : ∀ a ∈ blockAddrs s x, Writable a) : exec (.stRegs x) s =
    .next ((s.setMem (s.mem.storeBytes s.i.toNat ((regsUpTo x).map s.reg))).setI (indexAfterBlock s x)).advance :=
  afterChecks_writable h

theorem exec_ldRegs_of_readable (h : ∀ a ∈ blockAddrs s x, Readable a) : exec (.ldRegs x) s =
    .next ((loadRegs s.mem s.i.toNat (regsUpTo x) s).setI (indexAfterBlock s x)).advance :=
  afterChecks_readable h

end

/-! ## The block in memory -/

/-- Outside the addresses of a stored block every byte reads as before. -/
theorem read_storeBytes_of_not_mem {m : Memory} {base a : Nat} {bs : List Byte} (hm : m.sorted)
    (ha : a ∉ accessRange base bs.length) : (m.storeBytes base bs).read a = m.read a := by
  rw [mem_accessRange] at ha
  exact Memory.read_storeBytes_outside hm (by omega)

/-- A stored block and IP. -/
theorem Frame.of_storeBytes {s : State} (hm : s.mem.sorted) (base : Nat) (bs : List Byte) :
    Frame { mem := accessRange base bs.length } s (s.setMem (s.mem.storeBytes base bs)).advance :=
  ⟨fun _ _ => rfl, fun _ ha => read_storeBytes_of_not_mem hm ha, fun _ => rfl, fun _ => ⟨rfl, rfl⟩, fun _ => rfl,
    fun _ => rfl, fun _ => rfl, fun _ => rfl, fun _ => rfl, rfl, rfl, rfl⟩

/-- A frame up to a write of I before the move of IP. -/
theorem Frame.setI {w : Writes} {s t : State} (h : Frame w s t.advance) (a : Word) :
    Frame { w with index := true } s (t.setI a).advance :=
  ⟨h.regs, h.mem, nofun, h.stack, h.dt, h.st, h.fb, h.awaiting, h.draws, h.keys, h.halt, h.cfg⟩

/-- The index after a block transfer, as a number. -/
theorem indexAfterBlock_toNat (s : State) (x : RegIdx) : (indexAfterBlock s x).toNat =
    if s.cfg.lsIncrementI then (s.i.toNat + x.val + 1) % 65536 else s.i.toNat := by
  unfold indexAfterBlock
  split_ifs
  · exact BitVec.toNat_ofNat _ _
  · rfl

/-! ## Digits -/

/-- The three stored digits as numbers. -/
theorem read_stored_digits {m : Memory} (hm : m.sorted) (base : Nat) (b : Byte) :
    ((m.storeBytes base (bcdDigits b)).read base).toNat = b.toNat / 100 ∧
    ((m.storeBytes base (bcdDigits b)).read (base + 1)).toNat = b.toNat / 10 % 10 ∧
    ((m.storeBytes base (bcdDigits b)).read (base + 2)).toNat = b.toNat % 10 := by
  have hb := b.isLt
  have digit {k : Nat} (hk : k < 3) :
      ((m.storeBytes base (bcdDigits b)).read (base + k)).toNat = ((bcdDigits b)[k]'hk).toNat :=
    congrArg BitVec.toNat (Memory.read_storeBytes_inside hm hk)
  refine ⟨(digit (k := 0) (by decide)).trans ?_, (digit (k := 1) (by decide)).trans ?_,
    (digit (k := 2) (by decide)).trans ?_⟩ <;>
    simp only [bcdDigits, List.getElem_cons_zero, List.getElem_cons_succ, BitVec.toNat_ofNat] <;> omega

/-- Settles O33: FX33 is one stored block, of the three digits. -/
theorem ldBStoresThreeDecimalDigits : Obligations.LdBStoresThreeDecimalDigits := by
  intro x s
  refine ⟨decodesTo_packXK_F x decodeF_33, fun hm hw => ?_⟩
  obtain ⟨hhundreds, htens, hones⟩ := read_stored_digits hm.sorted s.i.toNat (s.reg x)
  refine ⟨_, exec_ldB_of_writable hw, ?_, ?_, ?_, rfl, Frame.of_storeBytes hm.sorted s.i.toNat (bcdDigits (s.reg x))⟩
  · simp only [State.advance_mem, State.setMem_mem, hhundreds, htens, hones]
    omega
  · simp only [State.advance_mem, State.setMem_mem, htens]
    omega
  · simp only [State.advance_mem, State.setMem_mem, hones]
    omega

/-! ## Blocks of registers -/

/-- The k-th register of V0..VX is Vk, for a register of the block. -/
theorem getElem_regsUpTo_map {x r : RegIdx} (s : State) (hr : r ≤ x) :
    ∃ h : r.val < ((regsUpTo x).map s.reg).length, ((regsUpTo x).map s.reg)[r.val] = s.reg r := by
  obtain ⟨hlen, hval⟩ := regsUpTo_spec x
  have hlt : r.val < (regsUpTo x).length := hlen ▸ Nat.lt_succ_of_le hr
  refine ⟨by rwa [List.length_map], ?_⟩
  rw [List.getElem_map]
  exact congrArg s.reg (Fin.ext (hval r.val hlt))

theorem blockAddrs_eq (s : State) (x : RegIdx) :
    blockAddrs s x = accessRange s.i.toNat ((regsUpTo x).map s.reg).length := by
  rw [List.length_map, (regsUpTo_spec x).1, blockAddrs]

/-- Each register of a stored block is read at its address. -/
theorem read_stored_block {x r : RegIdx} {s : State} (hm : s.mem.sorted) (hr : r ≤ x) :
    (s.mem.storeBytes s.i.toNat ((regsUpTo x).map s.reg)).read (s.i.toNat + r.val) = s.reg r := by
  obtain ⟨hlt, hget⟩ := getElem_regsUpTo_map s hr
  rw [Memory.read_storeBytes_inside hm hlt, hget]

/-- What FX65 leaves in every register. -/
theorem ldRegs_reg (m : Memory) (base : Nat) (x r : RegIdx) (s : State) :
    (loadRegs m base (regsUpTo x) s).reg r = if r ≤ x then m.read (base + r.val) else s.reg r := by
  simp only [loadRegs_reg, mem_regsUpTo]

/-- Settles O34: FX55 is one stored block, of the registers up to X, and one write of I. -/
theorem stRegsStoresTheBlock : Obligations.StRegsStoresTheBlock := by
  intro x s
  refine ⟨decodesTo_packXK_F x decodeF_55, fun hm hw => ?_⟩
  refine ⟨_, exec_stRegs_of_writable hw, fun r hr => read_stored_block hm.sorted hr, indexAfterBlock_toNat s x, rfl, ?_⟩
  rw [blockAddrs_eq]
  exact (Frame.of_storeBytes hm.sorted _ _).setI _

/-- A block load, I and IP. -/
theorem Frame.of_loadRegs (m : Memory) (base : Nat) (x : RegIdx) (a : Word) (s : State) :
    Frame { regs := regsUpTo x, index := true } s ((loadRegs m base (regsUpTo x) s).setI a).advance := by
  refine Frame.setI (w := { regs := regsUpTo x }) (Frame.of_regs (fun r hr => ?_) ?_) a
  · rw [State.advance_reg, loadRegs_reg, if_neg hr]
  · rw [loadRegs_other]
    rfl

/-- Settles O35: FX65 is one block load and one write of I. -/
theorem ldRegsLoadsTheBlock : Obligations.LdRegsLoadsTheBlock := by
  intro x s
  refine ⟨decodesTo_packXK_F x decodeF_65, fun hread => ?_⟩
  refine ⟨_, exec_ldRegs_of_readable hread, fun r hr => ?_, indexAfterBlock_toNat s x, ?_, Frame.of_loadRegs _ _ x _ s⟩
  · rw [State.advance_reg, State.setI_reg, ldRegs_reg, if_pos hr]
  · rw [State.advance_ip, State.setI_ip, loadRegs_ip]

/-- Settles O36: the load reads what the store put at each register's address. -/
theorem storedBlockLoadsBack : Obligations.StoredBlockLoadsBack := by
  intro x s regs hm hw
  refine ⟨_, _, exec_stRegs_of_writable hw, exec_ldRegs_of_readable fun a ha => (hw a ha).readable, fun r hr => ?_,
    fun r hr => ?_⟩
  · rw [State.advance_reg, State.setI_reg, ldRegs_reg, if_pos hr]
    exact read_stored_block hm.sorted hr
  · rw [State.advance_reg, State.setI_reg, ldRegs_reg, if_neg (not_le.2 hr)]
    rfl

end Sys2Proof.Machine
end

section
/-! Drawing (43_display.md R192, R193): the pixels a sprite covers are the ones that DXYN toggles. -/

namespace Sys2Proof.Machine

/-! ## Where a sprite bit lands -/

section
variable {x0 y0 : Byte} {r c : Nat} {px : Fin 64} {py : Fin 32}

theorem pixelAt_wrap : pixelAt .wrap x0 y0 (r, c) = some (px, py) ↔
    px.val = (x0.toNat + c) % 64 ∧ py.val = (y0.toNat + r) % 32 := by
  simp only [pixelAt, Option.some.injEq, Prod.mk.injEq, Fin.ext_iff]
  exact and_congr eq_comm eq_comm

theorem pixelAt_clip : pixelAt .clip x0 y0 (r, c) = some (px, py) ↔
    px.val = x0.toNat % 64 + c ∧ py.val = y0.toNat % 32 + r := by
  have hx := px.isLt
  have hy := py.isLt
  simp only [pixelAt]
  split_ifs with hinside
  · simp only [Option.some.injEq, Prod.mk.injEq, Fin.ext_iff]
    exact and_congr eq_comm eq_comm
  · simp only [false_iff]
    omega

end

/-! ## The toggled pixels are the covered ones -/

section
variable (x y : RegIdx) (n : Nat) (s : State)

theorem spriteRows_length : (spriteRows s n).length = n := by
  simp only [spriteRows, spriteAddrs, accessRange, List.length_map, List.length_range]

theorem spriteRows_getElem {r : Nat} (h : r < (spriteRows s n).length) :
    (spriteRows s n)[r] = s.mem.read (s.i.toNat + r) := by
  simp only [spriteRows, spriteAddrs, accessRange, List.getElem_map, List.getElem_range]

/-- The sprite bits in memory. -/
theorem mem_spriteBits_spriteRows {r c : Nat} : (r, c) ∈ spriteBits (spriteRows s n) ↔
    r < n ∧ c < 8 ∧ (s.mem.read (s.i.toNat + r)).getLsbD (7 - c) = true := by
  simp only [mem_spriteBits, spriteRows_getElem, spriteRows_length, exists_prop]

theorem mem_spritePixels {px : Fin 64} {py : Fin 32} :
    (px, py) ∈ spritePixels s.cfg.drawEdge (s.reg x) (s.reg y) (spriteRows s n) ↔ SpriteCovers s x y n px py := by
  unfold SpriteCovers
  simp only [spritePixels, List.mem_filterMap, Prod.exists, mem_spriteBits_spriteRows, and_assoc]
  cases s.cfg.drawEdge with
  | wrap => simp only [pixelAt_wrap]
  | clip => simp only [pixelAt_clip]

variable {x y n s}

/-- What a draw of at most 15 rows leaves in the framebuffer, and its collision. -/
theorem drawn_spec (hn : n ≤ 15) :
    (∀ px py, SpriteCovers s x y n px py → (drawn x y n s).1.pixel px py = !s.fb.pixel px py) ∧
    (∀ px py, ¬ SpriteCovers s x y n px py → (drawn x y n s).1.pixel px py = s.fb.pixel px py) ∧
    ((drawn x y n s).2 = true ↔ ∃ px py, SpriteCovers s x y n px py ∧ s.fb.pixel px py = true) := by
  have hrows : (spriteRows s n).length ≤ 32 := by
    rw [spriteRows_length]
    exact hn.trans (by decide)
  obtain ⟨hpixel, hcollision⟩ :=
    togglePixels_spec _ (nodup_spritePixels s.cfg.drawEdge (s.reg x) (s.reg y) _ hrows) s.fb false
  refine ⟨fun px py h => ?_, fun px py h => ?_, ?_⟩
  · exact (hpixel px py).trans (if_pos ((mem_spritePixels x y n s).2 h))
  · exact (hpixel px py).trans (if_neg (mt (mem_spritePixels x y n s).1 h))
  · rw [drawn, hcollision]
    simp only [Bool.false_eq_true, false_or, Prod.exists, mem_spritePixels]

/-! ## DRW as one write of FB and one of VF -/

theorem exec_drw_of_readable (h : ∀ a ∈ spriteAddrs s n, Readable a) : exec (.drw x y n) s =
    .next ((s.setFb (drawn x y n s).1).setReg VF (flagOf (drawn x y n s).2)).advance :=
  afterChecks_readable h

/-- A write of FB, of VF and of IP. -/
theorem Frame.of_setFb_setReg (f : Framebuffer) (b : Byte) (s : State) :
    Frame { regs := [VF], fb := true } s ((s.setFb f).setReg VF b).advance :=
  ⟨fun _ hr => State.setReg_reg_other _ b (List.mem_singleton.not.1 hr), fun _ _ => rfl, fun _ => rfl,
    fun _ => ⟨rfl, rfl⟩, fun _ => rfl, fun _ => rfl, nofun, fun _ => rfl, fun _ => rfl, rfl, rfl, rfl⟩

theorem drw_reg_VF (f : Framebuffer) (c : Bool) (s : State) :
    ((s.setFb f).setReg VF (flagOf c)).advance.reg VF = flagOf c := State.setReg_reg_same _ VF _

/-- A draw whose rows are all readable. -/
theorem exec_drw_spec (hn : n ≤ 15) (h : ∀ a ∈ spriteAddrs s n, Readable a) :
    ∃ t, exec (.drw x y n) s = .next t ∧
      (∀ px py, SpriteCovers s x y n px py → t.fb.pixel px py = !s.fb.pixel px py) ∧
      (∀ px py, ¬ SpriteCovers s x y n px py → t.fb.pixel px py = s.fb.pixel px py) ∧
      ((∃ px py, SpriteCovers s x y n px py ∧ s.fb.pixel px py = true) → t.reg VF = 1) ∧
      ((∀ px py, SpriteCovers s x y n px py → s.fb.pixel px py = false) → t.reg VF = 0) ∧
      t.ip = s.ip + 2 ∧ Frame { regs := [VF], fb := true } s t := by
  obtain ⟨hcovered, hother, hcollision⟩ := drawn_spec (x := x) (y := y) (s := s) hn
  refine ⟨_, exec_drw_of_readable h, hcovered, hother, fun hlit => ?_, fun hblank => ?_, rfl,
    Frame.of_setFb_setReg _ _ s⟩
  · rw [drw_reg_VF, hcollision.2 hlit]
    rfl
  · have hnone : (drawn x y n s).2 = false := by
      rw [Bool.eq_false_iff, Ne, hcollision]
      rintro ⟨px, py, hc, hlit⟩
      exact Bool.false_ne_true ((hblank px py hc).symm.trans hlit)
    rw [drw_reg_VF, hnone]
    rfl

end

/-- Settles O40: DXYN is one draw. -/
theorem drwTogglesExactlyTheCoveredPixels : Obligations.DrwTogglesExactlyTheCoveredPixels := by
  intro x y n s hn
  exact ⟨decodesTo_packXYN_D x y hn, exec_drw_spec hn⟩

/-! ## Drawing twice -/

/-- A draw whose coordinates are not in VF leaves the sprite where it was. -/
theorem spriteCovers_after_draw {x y : RegIdx} {n : Nat} {s t : State} {px : Fin 64} {py : Fin 32} (hx : x ≠ VF)
    (hy : y ≠ VF) (h : Frame { regs := [VF], fb := true } s t) :
    SpriteCovers t x y n px py ↔ SpriteCovers s x y n px py := by
  have hvx : t.reg x = s.reg x := h.regs x (List.mem_singleton.not.2 hx)
  have hvy : t.reg y = s.reg y := h.regs y (List.mem_singleton.not.2 hy)
  have hread : ∀ a, t.mem.read a = s.mem.read a := fun a => h.mem a List.not_mem_nil
  simp only [SpriteCovers, hvx, hvy, hread, h.index rfl, h.cfg]

/-- Settles O41: the second draw covers the pixels of the first, so that each is turned twice, and a covered pixel is
lit before it on a blank region. -/
theorem drawingTwiceRestoresTheScreen : Obligations.DrawingTwiceRestoresTheScreen := by
  intro x y n s hn hx hy hread
  obtain ⟨t, ht, htcovered, htother, _, htblank, _, htframe⟩ := exec_drw_spec (x := x) (y := y) hn hread
  have hread' : ∀ a ∈ spriteAddrs t n, Readable a := by
    rw [spriteAddrs, htframe.index rfl]
    exact hread
  obtain ⟨u, hu, hucovered, huother, hulit, _, _, _⟩ := exec_drw_spec (x := x) (y := y) hn hread'
  simp only [spriteCovers_after_draw hx hy htframe] at hucovered huother hulit
  refine ⟨t, u, ht, hu, fun px py => ?_, fun hblank hsome => ?_⟩
  · by_cases hc : SpriteCovers s x y n px py
    · rw [hucovered px py hc, htcovered px py hc, Bool.not_not]
    · rw [huother px py hc, htother px py hc]
  · obtain ⟨px, py, hc⟩ := hsome
    refine ⟨htblank hblank, hulit ⟨px, py, hc, ?_⟩⟩
    rw [htcovered px py hc, hblank px py hc]
    rfl

end Sys2Proof.Machine
end

section
/-! What an instruction can do, said once (10_state.md R20 to R33; 60_exceptions.md R242): the checks it makes, the
pieces of state it writes, where IP goes, and what becomes of memory, the stack and AW. -/

namespace Sys2Proof.Machine

/-! ## The checks of an instruction and the pieces it writes -/

/-- The error an instruction raises, if any. -/
def execFailure (i : Instr) (s : State) : Option Error :=
  match i with
  | .ret => if s.sp = 0 then some (.stackUnderflow s.ip) else none
  | .call _ => if s.sp = s.cfg.stackDepth then some (.stackOverflow s.ip) else none
  | .drw _ _ n => firstFailure (checkRead s.ip) (spriteAddrs s n)
  | .ldB _ => firstFailure (checkWrite s.ip) (bcdAddrs s)
  | .stRegs x => firstFailure (checkWrite s.ip) (blockAddrs s x)
  | .ldRegs x => firstFailure (checkRead s.ip) (blockAddrs s x)
  | _ => none

/-- The pieces of state, IP and memory apart, that an instruction may write when it raises no error. -/
def writesOf (i : Instr) (s : State) : Writes :=
  match i with
  | .cls => { fb := true }
  | .ret | .call _ => { stack := true }
  | .jp _ | .jpV0 _ | .seImm _ _ | .sneImm _ _ | .seReg _ _ | .sneReg _ _ | .skp _ | .sknp _ => {}
  | .ldImm x _ | .addImm x _ | .ldReg x _ | .orReg x _ | .andReg x _ | .xorReg x _ | .ldVxDt x => { regs := [x] }
  | .addReg x _ | .subReg x _ | .shr x _ | .subnReg x _ | .shl x _ => { regs := [x, VF] }
  | .ldI _ | .addI _ | .ldF _ => { index := true }
  | .rnd x _ => { regs := [x], draws := true }
  | .drw _ _ _ => { regs := [VF], fb := true }
  | .ldVxK x => { regs := [x], awaiting := true, draws := true }
  | .ldDtVx _ => { dt := true }
  | .ldStVx _ => { st := true }
  | .ldB _ => {}
  | .stRegs _ => { index := s.cfg.lsIncrementI }
  | .ldRegs x => { regs := regsUpTo x, index := s.cfg.lsIncrementI }

/-! ## Frames up to memory -/

/-- The frame of `w` with every change of memory allowed. -/
abbrev FrameUpToMem (w : Writes) (s t : State) : Prop := Frame w (s.setMem t.mem) t

section
variable {w : Writes} {s t : State}

theorem Frame.refl (w : Writes) (s : State) : Frame w s s :=
  ⟨fun _ _ => rfl, fun _ _ => rfl, fun _ => rfl, fun _ => ⟨rfl, rfl⟩, fun _ => rfl, fun _ => rfl, fun _ => rfl,
    fun _ => rfl, fun _ => rfl, rfl, rfl, rfl⟩

theorem Frame.upToMem (h : Frame w s t) : FrameUpToMem w s t :=
  ⟨h.regs, fun _ _ => rfl, h.index, h.stack, h.dt, h.st, h.fb, h.awaiting, h.draws, h.keys, h.halt, h.cfg⟩

/-- A frame that leaves AW alone is one that may write it. -/
theorem Frame.allowAwaiting (h : Frame w s t) : Frame { w with awaiting := true } s t :=
  ⟨h.regs, h.mem, h.index, h.stack, h.dt, h.st, h.fb, nofun, h.draws, h.keys, h.halt, h.cfg⟩

/-- A write of AW alone, seen as one that may write a register and make a draw too. -/
theorem Frame.of_setAwaiting (x : RegIdx) (s : State) :
    Frame { regs := [x], awaiting := true, draws := true } s (s.setAwaiting (some x)) :=
  ⟨fun _ _ => rfl, fun _ _ => rfl, fun _ => rfl, fun _ => ⟨rfl, rfl⟩, fun _ => rfl, fun _ => rfl, fun _ => rfl,
    nofun, nofun, rfl, rfl, rfl⟩

end

/-- I after a block transfer is as before unless LS_INCREMENT_I. -/
theorem indexAfterBlock_of_not {s : State} (x : RegIdx) (h : s.cfg.lsIncrementI = false) :
    indexAfterBlock s x = s.i := by
  rw [indexAfterBlock, h]
  rfl

/-- Memory and I alone. -/
theorem Frame.of_stRegs (m : Memory) (x : RegIdx) (s : State) :
    FrameUpToMem { index := s.cfg.lsIncrementI } s ((s.setMem m).setI (indexAfterBlock s x)).advance :=
  ⟨fun _ _ => rfl, fun _ _ => rfl, indexAfterBlock_of_not x, fun _ => ⟨rfl, rfl⟩, fun _ => rfl, fun _ => rfl,
    fun _ => rfl, fun _ => rfl, fun _ => rfl, rfl, rfl, rfl⟩

/-- The registers up to X, and I by LS_INCREMENT_I. -/
theorem Frame.of_ldRegs (m : Memory) (base : Nat) (x : RegIdx) (s : State) :
    Frame { regs := regsUpTo x, index := s.cfg.lsIncrementI } s
      ((loadRegs m base (regsUpTo x) s).setI (indexAfterBlock s x)).advance := by
  have h := Frame.of_loadRegs m base x (indexAfterBlock s x) s
  exact ⟨h.regs, h.mem, indexAfterBlock_of_not x, h.stack, h.dt, h.st, h.fb, h.awaiting, h.draws, h.keys, h.halt, h.cfg⟩

/-! ## What each instruction with cases answers -/

section
variable {s t : State}

theorem exec_ret_next (h : exec .ret s = .next t) :
    (s.sp = 0 ∧ t = s.setHalt (some (.stackUnderflow s.ip))) ∨
    (s.sp ≠ 0 ∧ t = s.pop.setIp (s.stackEntry (s.sp - 1) + 2)) := by
  by_cases hsp : s.sp = 0
  · cases h.symm.trans (exec_ret_underflow hsp)
    exact .inl ⟨hsp, rfl⟩
  · cases h.symm.trans (exec_ret_pop hsp)
    exact .inr ⟨hsp, rfl⟩

theorem exec_call_next {nnn : Addr12} (h : exec (.call nnn) s = .next t) :
    (s.sp = s.cfg.stackDepth ∧ t = s.setHalt (some (.stackOverflow s.ip))) ∨
    (s.sp ≠ s.cfg.stackDepth ∧ t = (s.push s.ip).setIp (zext16 nnn)) := by
  by_cases hsp : s.sp = s.cfg.stackDepth
  · cases h.symm.trans (exec_call_overflow nnn hsp)
    exact .inl ⟨hsp, rfl⟩
  · cases h.symm.trans (exec_call_push nnn hsp)
    exact .inr ⟨hsp, rfl⟩

theorem exec_ldVxK_next {x : RegIdx} (h : exec (.ldVxK x) s = .next t) :
    (∃ k, t = storeKey x k s) ∨ t = s.setAwaiting (some x) := by
  cases hk : drawnKey s with
  | none =>
    cases h.symm.trans (exec_ldVxK_of_no_key (drawnKey_none.1 hk))
    exact .inr rfl
  | some k =>
    cases h.symm.trans (exec_ldVxK_of_key hk)
    exact .inl ⟨k, rfl⟩

/-- An instruction raises the error of its checks and writes HALT alone, or writes the pieces named for it. -/
theorem exec_next {i : Instr} (h : exec i s = .next t) :
    (∃ e, execFailure i s = some e ∧ t = s.setHalt (some e)) ∨
    (execFailure i s = none ∧ FrameUpToMem (writesOf i s) s t) := by
  cases i with
  | ret =>
    obtain ⟨hsp, rfl⟩ | ⟨hsp, rfl⟩ := exec_ret_next h
    · exact .inl ⟨_, if_pos hsp, rfl⟩
    · exact .inr ⟨if_neg hsp, (Frame.of_stack rfl).upToMem⟩
  | call nnn =>
    obtain ⟨hsp, rfl⟩ | ⟨hsp, rfl⟩ := exec_call_next h
    · exact .inl ⟨_, if_pos hsp, rfl⟩
    · exact .inr ⟨if_neg hsp, (Frame.of_stack rfl).upToMem⟩
  | drw x y n =>
    obtain hraise | ⟨hnone, rfl⟩ := afterChecks_next h
    · exact .inl hraise
    · exact .inr ⟨hnone, (Frame.of_setFb_setReg _ _ s).upToMem⟩
  | ldB x =>
    obtain hraise | ⟨hnone, rfl⟩ := afterChecks_next h
    · exact .inl hraise
    · exact .inr ⟨hnone, Frame.of_ip rfl⟩
  | stRegs x =>
    obtain hraise | ⟨hnone, rfl⟩ := afterChecks_next h
    · exact .inl hraise
    · exact .inr ⟨hnone, Frame.of_stRegs _ x s⟩
  | ldRegs x =>
    obtain hraise | ⟨hnone, rfl⟩ := afterChecks_next h
    · exact .inl hraise
    · exact .inr ⟨hnone, (Frame.of_ldRegs _ _ x s).upToMem⟩
  | ldVxK x =>
    obtain ⟨k, rfl⟩ | rfl := exec_ldVxK_next h
    · exact .inr ⟨rfl, (Frame.of_storeKey x k s).allowAwaiting.upToMem⟩
    · exact .inr ⟨rfl, (Frame.of_setAwaiting x s).upToMem⟩
  | cls => cases h; exact .inr ⟨rfl, (Frame.of_setFb _ s).upToMem⟩
  | ldI nnn => cases h; exact .inr ⟨rfl, (Frame.of_setI _ s).upToMem⟩
  | addI x => cases h; exact .inr ⟨rfl, (Frame.of_setI _ s).upToMem⟩
  | ldF x => cases h; exact .inr ⟨rfl, (Frame.of_setI _ s).upToMem⟩
  | rnd x nn => cases h; exact .inr ⟨rfl, (Frame.of_setReg_nextDraw x _ s).upToMem⟩
  | ldDtVx x => cases h; exact .inr ⟨rfl, (Frame.of_setDt _ s).upToMem⟩
  | ldStVx x => cases h; exact .inr ⟨rfl, (Frame.of_setSt _ s).upToMem⟩
  | jp | jpV0 | seImm | sneImm | seReg | sneReg | skp | sknp => cases h; exact .inr ⟨rfl, Frame.of_ip rfl⟩
  | ldImm x | addImm x | ldReg x | orReg x | andReg x | xorReg x | ldVxDt x =>
    cases h; exact .inr ⟨rfl, (Frame.of_setReg x _ s).upToMem⟩
  | addReg x | subReg x | shr x | subnReg x | shl x =>
    cases h; exact .inr ⟨rfl, (Frame.of_writeWithFlag x _ _ s).upToMem⟩

end

section
variable {i : Instr} {s t : State} {e : Error}

/-! ## Errors -/

theorem firstFailure_some {check : Nat → Option Error} {addrs : List Nat} (h : firstFailure check addrs = some e) :
    ∃ a, check a = some e := by
  obtain ⟨a, _, ha⟩ := List.exists_of_findSome?_eq_some h
  exact ⟨a, ha⟩

/-- Codes 2 to 6 are the run-time errors (60_exceptions.md R240). -/
def Error.isRunTime (e : Error) : Prop := 2 ≤ e.code ∧ e.code ≤ 6

/-- Every error but load_program's is one. -/
theorem Error.isRunTime_of_ne (h : ∀ n, e ≠ .loadError n) : e.isRunTime := by
  cases e with
  | loadError n => exact absurd rfl (h n)
  | _ => exact ⟨by simp only [Error.code]; decide, by simp only [Error.code]; decide⟩

theorem firstFailure_checkRead_isRunTime {ip : Word} {addrs : List Nat}
    (h : firstFailure (checkRead ip) addrs = some e) : e.isRunTime := by
  obtain ⟨a, ha⟩ := firstFailure_some h
  unfold checkRead at ha
  split_ifs at ha
  cases ha
  exact Error.isRunTime_of_ne nofun

theorem firstFailure_checkWrite_isRunTime {ip : Word} {addrs : List Nat}
    (h : firstFailure (checkWrite ip) addrs = some e) : e.isRunTime := by
  obtain ⟨a, ha⟩ := firstFailure_some h
  unfold checkWrite at ha
  split_ifs at ha <;> cases ha <;> exact Error.isRunTime_of_ne nofun

/-- The instructions that make checks, and that their errors are run-time errors. -/
theorem execFailure_some (h : execFailure i s = some e) : e.isRunTime ∧
    (i = .ret ∨ (∃ nnn, i = .call nnn) ∨ (∃ x y n, i = .drw x y n) ∨
      ∃ x, i = .ldB x ∨ i = .stRegs x ∨ i = .ldRegs x) := by
  cases i with
  | ret =>
    rw [execFailure] at h
    split_ifs at h
    cases h
    exact ⟨Error.isRunTime_of_ne nofun, .inl rfl⟩
  | call nnn =>
    rw [execFailure] at h
    split_ifs at h
    cases h
    exact ⟨Error.isRunTime_of_ne nofun, .inr (.inl ⟨nnn, rfl⟩)⟩
  | drw x y n => exact ⟨firstFailure_checkRead_isRunTime h, .inr (.inr (.inl ⟨x, y, n, rfl⟩))⟩
  | ldB x => exact ⟨firstFailure_checkWrite_isRunTime h, .inr (.inr (.inr ⟨x, .inl rfl⟩))⟩
  | stRegs x => exact ⟨firstFailure_checkWrite_isRunTime h, .inr (.inr (.inr ⟨x, .inr (.inl rfl)⟩))⟩
  | ldRegs x => exact ⟨firstFailure_checkRead_isRunTime h, .inr (.inr (.inr ⟨x, .inr (.inr rfl)⟩))⟩
  | _ => cases h

/-- A fetch raises a DecodeError or an AddressError. -/
theorem fetchInstr_isRunTime (h : fetchInstr s = .error e) : e.isRunTime := by
  by_cases hip : s.ip.toNat + 1 ≤ 0xFFF
  · rw [fetchInstr_inside hip] at h
    split at h <;> cases h
    exact Error.isRunTime_of_ne nofun
  · cases h.symm.trans (fetchInstr_outside (s := s) (by omega))
    exact Error.isRunTime_of_ne nofun

/-! ## Memory -/

/-- The instructions that store to memory (20_memory.md R58). -/
def IsStore (i : Instr) : Prop := ∃ x, i = .ldB x ∨ i = .stRegs x

/-- Memory is as before, or a store whose addresses may all be written put a block there. -/
theorem exec_mem (h : exec i s = .next t) : t.mem = s.mem ∨
    IsStore i ∧ ∃ bs : List Byte, (∀ a ∈ accessRange s.i.toNat bs.length, Writable a) ∧
      t.mem = s.mem.storeBytes s.i.toNat bs := by
  cases i with
  | ldB x =>
    obtain ⟨e, _, rfl⟩ | ⟨hnone, rfl⟩ := afterChecks_next h
    · exact .inl rfl
    · exact .inr ⟨⟨x, .inl rfl⟩, bcdDigits (s.reg x),
        fun a ha => checkWrite_writable.1 (firstFailure_none.1 hnone a ha), rfl⟩
  | stRegs x =>
    obtain ⟨e, _, rfl⟩ | ⟨hnone, rfl⟩ := afterChecks_next h
    · exact .inl rfl
    · refine .inr ⟨⟨x, .inr rfl⟩, _, fun a ha => checkWrite_writable.1 (firstFailure_none.1 hnone a ?_), rfl⟩
      rwa [blockAddrs_eq]
  | ldRegs x =>
    obtain ⟨e, _, rfl⟩ | ⟨_, rfl⟩ := afterChecks_next h
    · exact .inl rfl
    · exact .inl (loadRegs_mem _ _ _ s)
  | drw x y n => obtain ⟨e, _, rfl⟩ | ⟨_, rfl⟩ := afterChecks_next h <;> exact .inl rfl
  | ret => obtain ⟨_, rfl⟩ | ⟨_, rfl⟩ := exec_ret_next h <;> exact .inl rfl
  | call nnn => obtain ⟨_, rfl⟩ | ⟨_, rfl⟩ := exec_call_next h <;> exact .inl rfl
  | ldVxK x => obtain ⟨k, rfl⟩ | rfl := exec_ldVxK_next h <;> exact .inl rfl
  | addReg x | subReg x | shr x | subnReg x | shl x => cases h; exact .inl (writeWithFlag_mem x _ _ s)
  | _ => cases h; exact .inl rfl

/-! ## IP -/

/-- The skips (40_control.md R108; 44_input_timers.md R211, R212). -/
def IsSkip (i : Instr) : Prop :=
  (∃ x nn, i = .seImm x nn ∨ i = .sneImm x nn) ∨ (∃ x y, i = .seReg x y ∨ i = .sneReg x y) ∨
  ∃ x, i = .skp x ∨ i = .sknp x

/-- Where IP goes (30_encoding.md R84). -/
inductive IpMove (i : Instr) (s t : State) : Prop where
  | advance (hip : t.ip = s.ip + 2)
  | skip (hi : IsSkip i) (hip : t.ip = s.ip + 4)
  | jump (hi : ∃ nnn, i = .jp nnn ∨ i = .call nnn ∨ i = .jpV0 nnn) (hip : t.ip.toNat ≤ 0x10FE)
  | ret (hi : i = .ret) (hip : t.ip = s.stackEntry (s.sp - 1) + 2)
  | wait (x : RegIdx) (hi : i = .ldVxK x) (ht : t = s.setAwaiting (some x))
  | raised (e : Error) (ht : t = s.setHalt (some e))

theorem zext16_le (nnn : Addr12) : (zext16 nnn).toNat ≤ 0x10FE := by
  have := nnn.isLt
  rw [zext16_toNat]
  omega

theorem ipMove_of_skipIf {c : Bool} (hi : IsSkip i) : IpMove i s (s.skipIf c) := by
  cases c with
  | false => exact .advance rfl
  | true => exact .skip hi rfl

theorem exec_ip (h : exec i s = .next t) : IpMove i s t := by
  cases i with
  | jp nnn => cases h; exact .jump ⟨nnn, .inl rfl⟩ (zext16_le nnn)
  | jpV0 nnn => cases h; exact .jump ⟨nnn, .inr (.inr rfl)⟩ (offsetTarget_le nnn _)
  | call nnn =>
    obtain ⟨_, rfl⟩ | ⟨_, rfl⟩ := exec_call_next h
    · exact .raised _ rfl
    · exact .jump ⟨nnn, .inr (.inl rfl)⟩ (zext16_le nnn)
  | ret =>
    obtain ⟨_, rfl⟩ | ⟨_, rfl⟩ := exec_ret_next h
    · exact .raised _ rfl
    · exact .ret rfl rfl
  | seImm x nn => cases h; exact ipMove_of_skipIf (.inl ⟨x, nn, .inl rfl⟩)
  | sneImm x nn => cases h; exact ipMove_of_skipIf (.inl ⟨x, nn, .inr rfl⟩)
  | seReg x y => cases h; exact ipMove_of_skipIf (.inr (.inl ⟨x, y, .inl rfl⟩))
  | sneReg x y => cases h; exact ipMove_of_skipIf (.inr (.inl ⟨x, y, .inr rfl⟩))
  | skp x => cases h; exact ipMove_of_skipIf (.inr (.inr ⟨x, .inl rfl⟩))
  | sknp x => cases h; exact ipMove_of_skipIf (.inr (.inr ⟨x, .inr rfl⟩))
  | ldVxK x =>
    obtain ⟨k, rfl⟩ | rfl := exec_ldVxK_next h
    · exact .advance rfl
    · exact .wait x rfl rfl
  | drw x y n =>
    obtain ⟨e, _, rfl⟩ | ⟨_, rfl⟩ := afterChecks_next h
    · exact .raised e rfl
    · exact .advance rfl
  | ldB x =>
    obtain ⟨e, _, rfl⟩ | ⟨_, rfl⟩ := afterChecks_next h
    · exact .raised e rfl
    · exact .advance rfl
  | stRegs x =>
    obtain ⟨e, _, rfl⟩ | ⟨_, rfl⟩ := afterChecks_next h
    · exact .raised e rfl
    · exact .advance rfl
  | ldRegs x =>
    obtain ⟨e, _, rfl⟩ | ⟨_, rfl⟩ := afterChecks_next h
    · exact .raised e rfl
    · exact .advance (congrArg (· + 2) (loadRegs_ip _ _ _ s))
  | addReg x | subReg x | shr x | subnReg x | shl x =>
    cases h; exact .advance (congrArg (· + 2) (writeWithFlag_ip x _ _ s))
  | _ => cases h; exact .advance rfl

/-! ## The writers of each piece -/

/-- The destinations of registers: V[r]'s writers, VF's as a flag among them. -/
theorem writesOf_regs {r : RegIdx} (h : r ∈ (writesOf i s).regs) :
    (∃ nn, i = .ldImm r nn ∨ i = .addImm r nn ∨ i = .rnd r nn) ∨
    (∃ y, i = .ldReg r y ∨ i = .orReg r y ∨ i = .andReg r y ∨ i = .xorReg r y ∨ i = .addReg r y ∨
      i = .subReg r y ∨ i = .shr r y ∨ i = .subnReg r y ∨ i = .shl r y) ∨
    i = .ldVxDt r ∨ i = .ldVxK r ∨ (∃ x, r ≤ x ∧ i = .ldRegs x) ∨
    (r = VF ∧ ((∃ x y, i = .addReg x y ∨ i = .subReg x y ∨ i = .shr x y ∨ i = .subnReg x y ∨ i = .shl x y) ∨
      ∃ x y n, i = .drw x y n)) := by
  cases i with
  | ldImm | addImm | rnd | ldReg | orReg | andReg | xorReg | ldVxDt | ldVxK | drw =>
    cases List.mem_singleton.1 h
    simp
  | addReg | subReg | shr | subnReg | shl =>
    obtain rfl | hVF := List.mem_cons.1 h
    · simp
    · cases List.mem_singleton.1 hVF
      simp
  | ldRegs x => simpa using mem_regsUpTo.1 h
  | _ => cases h

theorem writesOf_index (h : (writesOf i s).index = true) : (∃ nnn, i = .ldI nnn) ∨ ∃ x, i = .addI x ∨ i = .ldF x ∨
    (s.cfg.lsIncrementI = true ∧ (i = .stRegs x ∨ i = .ldRegs x)) := by
  cases i with
  | ldI | addI | ldF => simp
  | stRegs x => exact .inr ⟨x, .inr (.inr ⟨h, .inl rfl⟩)⟩
  | ldRegs x => exact .inr ⟨x, .inr (.inr ⟨h, .inr rfl⟩)⟩
  | _ => cases h

theorem writesOf_stack (h : (writesOf i s).stack = true) : i = .ret ∨ ∃ nnn, i = .call nnn := by
  cases i with
  | ret => exact .inl rfl
  | call nnn => exact .inr ⟨nnn, rfl⟩
  | _ => cases h

theorem writesOf_dt (h : (writesOf i s).dt = true) : ∃ x, i = .ldDtVx x := by
  cases i with
  | ldDtVx x => exact ⟨x, rfl⟩
  | _ => cases h

theorem writesOf_st (h : (writesOf i s).st = true) : ∃ x, i = .ldStVx x := by
  cases i with
  | ldStVx x => exact ⟨x, rfl⟩
  | _ => cases h

theorem writesOf_fb (h : (writesOf i s).fb = true) : i = .cls ∨ ∃ x y n, i = .drw x y n := by
  cases i with
  | cls => exact .inl rfl
  | drw x y n => exact .inr ⟨x, y, n, rfl⟩
  | _ => cases h

theorem writesOf_awaiting (h : (writesOf i s).awaiting = true) : ∃ x, i = .ldVxK x := by
  cases i with
  | ldVxK x => exact ⟨x, rfl⟩
  | _ => cases h

/-- Whatever an instruction answers, an error's HALT record or its own writes, is framed by the pieces named for it,
HALT and memory apart. -/
theorem exec_frame (h : exec i s = .next t) : Frame (writesOf i s) ((s.setMem t.mem).setHalt t.halt) t := by
  obtain ⟨e, _, rfl⟩ | ⟨_, hw⟩ := exec_next h
  · exact Frame.refl _ _
  · exact ⟨hw.regs, hw.mem, hw.index, hw.stack, hw.dt, hw.st, hw.fb, hw.awaiting, hw.draws, hw.keys, rfl, hw.cfg⟩

theorem exec_keys (h : exec i s = .next t) : t.keys = s.keys := (exec_frame h).keys
theorem exec_cfg (h : exec i s = .next t) : t.cfg = s.cfg := (exec_frame h).cfg

end

/-- Settles O59: what changes is a piece named for the instruction, IP's case, a store's block or an error's record. -/
theorem eachPieceOfStateHasItsNamedWriters : Obligations.EachPieceOfStateHasItsNamedWriters := by
  intro i s t h
  have hw := exec_frame h
  refine ⟨fun r hr => ?_, fun hi => ?_, fun hip => ?_, fun hstack => ?_, fun hdt => ?_, fun hst => ?_, fun hfb => ?_,
    fun hmem => ?_, fun haw => ?_, exec_keys h, fun hhalt => ?_⟩
  · exact writesOf_regs (not_imp_comm.1 (hw.regs r) hr)
  · exact writesOf_index (Bool.eq_true_of_not_eq_false (mt hw.index hi))
  · cases exec_ip h with
    | advance hip' => exact absurd hip' hip
    | skip hi =>
      obtain hi | hi | hi := hi
      · exact .inr (.inr (.inl hi))
      · exact .inr (.inr (.inr (.inl hi)))
      · exact .inr (.inr (.inr (.inr (.inl hi))))
    | jump hi => exact .inl hi
    | ret hi => exact .inr (.inl hi)
    | wait x hi ht => exact .inr (.inr (.inr (.inr (.inr (.inl ⟨x, hi, ht⟩)))))
    | raised e ht => exact .inr (.inr (.inr (.inr (.inr (.inr ⟨e, ht⟩)))))
  · refine writesOf_stack (s := s) (Bool.eq_true_of_not_eq_false fun hno => ?_)
    obtain ⟨hs, hsp⟩ := hw.stack hno
    exact hstack.elim (· hs) (· hsp)
  · exact writesOf_dt (Bool.eq_true_of_not_eq_false (mt hw.dt hdt))
  · exact writesOf_st (Bool.eq_true_of_not_eq_false (mt hw.st hst))
  · exact writesOf_fb (Bool.eq_true_of_not_eq_false (mt hw.fb hfb))
  · exact ((exec_mem h).resolve_left hmem).1
  · exact writesOf_awaiting (Bool.eq_true_of_not_eq_false (mt hw.awaiting haw))
  · obtain ⟨e, he, rfl⟩ | ⟨_, hw⟩ := exec_next h
    · exact (execFailure_some he).2
    · exact absurd hw.halt hhalt

/-- Settles O58: VF is written by its named destinations and by the six that write the flag. -/
theorem onlyTheListedInstructionsChangeTheFlag : Obligations.OnlyTheListedInstructionsChangeTheFlag := by
  intro i s t h hVF
  obtain himm | ⟨y, hy⟩ | hdt | hk | ⟨x, hx, hload⟩ | ⟨_, hflag | hdraw⟩ :=
    (eachPieceOfStateHasItsNamedWriters i s t h).1 VF hVF
  · exact .inr (.inr (.inl himm))
  · obtain h | h | h | h | hflag := hy
    · exact .inr (.inr (.inr (.inl ⟨y, .inl h⟩)))
    · exact .inr (.inr (.inr (.inl ⟨y, .inr (.inl h)⟩)))
    · exact .inr (.inr (.inr (.inl ⟨y, .inr (.inr (.inl h))⟩)))
    · exact .inr (.inr (.inr (.inl ⟨y, .inr (.inr (.inr h))⟩)))
    · exact .inl ⟨VF, y, hflag⟩
  · exact .inr (.inr (.inr (.inr (.inl hdt))))
  · exact .inr (.inr (.inr (.inr (.inr (.inl hk)))))
  · cases Fin.last_le_iff.1 hx
    exact .inr (.inr (.inr (.inr (.inr (.inr hload)))))
  · exact .inl hflag
  · exact .inr (.inl hdraw)

/-! ## The step -/

section
variable {s t : State}

/-- A wait cycle writes its register, AW and a draw. -/
theorem waitCycle_frame {r : RegIdx} (h : waitCycle r s = .next t) :
    Frame { regs := [r], draws := true, awaiting := true } s t := by
  obtain ⟨_, rfl⟩ | ⟨k, _, rfl⟩ := waitCycle_next h
  · exact Frame.refl _ t
  · exact (Frame.of_storeKey r k s).setAwaiting none

theorem step_keys_cfg (h : step s = .next t) : t.keys = s.keys ∧ t.cfg = s.cfg := by
  obtain ⟨_, ⟨r, _, hw⟩ | ⟨_, e, _, rfl⟩ | ⟨_, i, _, hx⟩⟩ := step_next h
  · exact ⟨(waitCycle_frame hw).keys, (waitCycle_frame hw).cfg⟩
  · exact ⟨rfl, rfl⟩
  · exact ⟨exec_keys hx, exec_cfg hx⟩

theorem step_ne_refused (s : State) (r : Refusal) : step s ≠ .refused r := by
  intro h
  cases hh : s.halt with
  | some e => cases h.symm.trans (step_halted hh)
  | none =>
    obtain ⟨t, ht⟩ := step_answers_next hh
    cases h.symm.trans ht

end

/-- Settles O60: every way a step answers a next state keeps both, and a step answers a next state or a fault. -/
theorem stepNeverWritesKeysNorRefuses : Obligations.StepNeverWritesKeysNorRefuses := by
  intro s
  exact ⟨fun t h => step_keys_cfg h, step_ne_refused s⟩

/-- Settles O12: a step that raises does so by the fetch or by an instruction's checks, and HALT is framed otherwise. -/
theorem errorsArePrecise : Obligations.ErrorsArePrecise := by
  intro s t e hh h he
  obtain ⟨_, ⟨r, _, hw⟩ | ⟨_, e', he', rfl⟩ | ⟨_, i, _, hx⟩⟩ := step_next h
  · cases ((waitCycle_frame hw).halt.trans hh).symm.trans he
  · cases he
    exact ⟨rfl, fetchInstr_isRunTime he'⟩
  · obtain ⟨e', he', rfl⟩ | ⟨_, hw⟩ := exec_next hx
    · cases he
      exact ⟨rfl, (execFailure_some he').1⟩
    · cases (hw.halt.trans hh).symm.trans he

end Sys2Proof.Machine
end

section
/-! The host's operations (60_exceptions.md R250 to R261; 70_reset_and_hazards.md R280 to R283): reset, the loads, the
keys, and a batch as a run of steps and a tick. -/

namespace Sys2Proof.Machine

/-! ## Reset -/

section
variable (c : Config)

theorem resetWith_reg (r : RegIdx) : (State.resetWith c).reg r = 0 := by
  simp [State.resetWith, State.reg, Vector.get_eq_getElem]

theorem resetWith_keys (k : RegIdx) : (State.resetWith c).keys.get k = false := by
  simp [State.resetWith, Vector.get_eq_getElem]

theorem resetWith_stack_length : (State.resetWith c).stack.length = c.stackDepth := List.length_replicate

theorem resetWith_stack_mem {w : Word} (h : w ∈ (State.resetWith c).stack) : w = 0 := List.eq_of_mem_replicate h

end

/-- Settles O45: the state after reset(), field by field. -/
theorem resetLeavesTheSpecValues : Obligations.ResetLeavesTheSpecValues := by
  refine ⟨rfl, ?_⟩
  rintro s t rfl
  exact ⟨Memory.read_nil, resetWith_reg s.cfg, rfl, rfl, resetWith_stack_length s.cfg,
    fun _ => resetWith_stack_mem s.cfg, rfl, rfl, rfl, Framebuffer.clear_pixel, resetWith_keys s.cfg, rfl, rfl, rfl⟩

/-! ## The calls on a session that has failed and on one that has not -/

section
variable {s : State} {e : Error}

theorem loadFont_running (table : Vector Byte 80) (hh : s.halt = none) :
    loadFont table s = s.setMem (s.mem.storeBytes 0 table.toList) := by
  rw [loadFont, hh]

theorem loadFont_failed (table : Vector Byte 80) (hh : s.halt = some e) : loadFont table s = s := by
  rw [loadFont, hh]

theorem loadProgram_running {bytes : List Byte} (hh : s.halt = none) (hlen : bytes.length ≤ 3584) :
    loadProgram bytes s = (.ok, s.setMem (s.mem.storeBytes programBase bytes)) := by
  simp only [loadProgram, hh]
  exact if_neg (Nat.not_lt.2 hlen)

theorem loadProgram_too_long {bytes : List Byte} (hh : s.halt = none) (hlen : 3584 < bytes.length) :
    loadProgram bytes s = (.err (.loadError bytes.length), s.setHalt (some (.loadError bytes.length))) := by
  simp only [loadProgram, hh]
  exact if_pos hlen

theorem loadProgram_failed (bytes : List Byte) (hh : s.halt = some e) : loadProgram bytes s = (.err e, s) := by
  rw [loadProgram, hh]

theorem setInputState_running (k : RegIdx) (pressed : Bool) (hh : s.halt = none) :
    setInputState k pressed s = s.setKey k pressed := by
  rw [setInputState, hh]

theorem setInputState_failed (k : RegIdx) (pressed : Bool) (hh : s.halt = some e) : setInputState k pressed s = s := by
  rw [setInputState, hh]

theorem runBatch_failed (n : BitVec 32) (hh : s.halt = some e) : runBatch n s = (.err e, s) := by
  rw [runBatch, hh]

/-- A batch whose cycles raise nothing ticks after them. -/
theorem runBatch_ok {n : BitVec 32} (hh : s.halt = none) (hr : (runCycles n.toNat s).halt = none) :
    runBatch n s = (.ok, tick (runCycles n.toNat s)) := by
  simp only [runBatch, hh, hr]

/-- A batch with a cycle that raises ends without a tick. -/
theorem runBatch_err {n : BitVec 32} (hh : s.halt = none) (hr : (runCycles n.toNat s).halt = some e) :
    runBatch n s = (.err e, runCycles n.toNat s) := by
  simp only [runBatch, hh, hr]

end

/-- Settles O51: every call but reset() looks at HALT first. -/
theorem failedSessionIsFrozenUntilReset : Obligations.FailedSessionIsFrozenUntilReset := by
  intro s e hh
  refine ⟨fun c hc => ?_, fun n => runBatch_failed n hh, fun bytes => loadProgram_failed bytes hh, rfl⟩
  cases c with
  | reset => exact absurd rfl hc
  | loadFont table => exact loadFont_failed table hh
  | loadProgram bytes => exact congrArg Prod.snd (loadProgram_failed bytes hh)
  | runBatch n => exact congrArg Prod.snd (runBatch_failed n hh)
  | framebufferSnapshot => rfl
  | setInputState k pressed => exact setInputState_failed k pressed hh
  | soundActive => rfl

/-- Settles O52: the reads answer from the state, and the key call is one write of K. -/
theorem hostReadsChangeNothingAndKeysAreSetAlone : Obligations.HostReadsChangeNothingAndKeysAreSetAlone := by
  intro s k pressed
  refine ⟨decide_eq_true_iff, rfl, fun _ _ => rfl, rfl, fun hh => ?_⟩
  refine ⟨_, setInputState_running k pressed hh, ?_, fun j hj => ?_, rfl⟩
  · rw [State.setKey_get, if_pos rfl]
  · rw [State.setKey_get, if_neg hj]

/-! ## The loads -/

/-- Settles O47: the program is one stored block. -/
theorem loadProgramCopiesOrFails : Obligations.LoadProgramCopiesOrFails := by
  intro s bytes hh
  refine ⟨loadProgram_too_long hh, fun hlen hm => ?_⟩
  exact ⟨_, loadProgram_running hh hlen, fun k hk => Memory.read_storeBytes_inside hm.sorted hk,
    fun a ha => Memory.read_storeBytes_outside hm.sorted ha, rfl⟩

/-- The memory after load_font on a cleared memory. -/
def fontMem (table : Vector Byte 80) : Memory := Memory.storeBytes [] 0 table.toList

section
variable (table : Vector Byte 80)

theorem fontMem_wf : (fontMem table).wf := Memory.storeBytes_wf Memory.wf_nil (by rw [Vector.length_toList]; decide)

theorem fontMem_read_font {k : Nat} (hk : k < 80) : (fontMem table).read k = table[k] := by
  have hlen : k < table.toList.length := by rwa [Vector.length_toList]
  have h := Memory.read_storeBytes_inside (a := 0) Memory.wf_nil.sorted hlen
  rw [Nat.zero_add] at h
  exact h.trans (Vector.getElem_toList hlen)

theorem fontMem_read_above {a : Nat} (ha : 80 ≤ a) : (fontMem table).read a = 0 := by
  refine (Memory.read_storeBytes_outside Memory.wf_nil.sorted (.inr ?_)).trans (Memory.read_nil a)
  rwa [Vector.length_toList, Nat.zero_add]

end

theorem boot_eq (c : Config) (rom : List Byte) :
    boot c rom = loadProgram rom ((State.resetWith c).setMem (fontMem c.font)) := by
  rw [boot, loadFont_running c.font rfl]
  rfl

theorem boot_of_fits (c : Config) {rom : List Byte} (hlen : rom.length ≤ 3584) :
    boot c rom = (.ok, (State.resetWith c).setMem ((fontMem c.font).storeBytes programBase rom)) := by
  rw [boot_eq, loadProgram_running rfl hlen]
  rfl

/-- Settles O46: the boot is two stored blocks, the font's and the ROM's, on the cleared memory. -/
theorem bootPlacesFontAndProgram : Obligations.BootPlacesFontAndProgram := by
  intro c rom hlen
  have hfont := (fontMem_wf c.font).sorted
  rw [boot_of_fits c hlen]
  refine ⟨rfl, fun k hk => ?_, fun k hk => Memory.read_storeBytes_inside hfont hk, fun a ha hout => ?_, rfl⟩
  · refine (Memory.read_storeBytes_outside hfont (.inl ?_)).trans (fontMem_read_font c.font hk)
    exact hk.trans (by decide)
  · exact (Memory.read_storeBytes_outside hfont hout).trans (fontMem_read_above c.font ha)

/-! ## Batches as runs of steps -/

/-- The cycles of a batch are the run of steps that ends at the first error, or after `n` steps without one. -/
theorem runCycles_of_run {k n : Nat} {s t : State} (hkn : k ≤ n) (hh : s.halt = none)
    (hrun : Host.Core.run Sys2Proof.core k s = .next t) (hend : t.halt = none → k = n) : runCycles n s = t := by
  induction k generalizing n s with
  | zero =>
    cases hrun
    rw [← hend hh]
    rfl
  | succ k ih =>
    obtain ⟨m, rfl⟩ := Nat.exists_eq_add_of_le' (Nat.lt_of_lt_of_le (Nat.succ_pos k) hkn)
    obtain ⟨u, hu⟩ := step_answers_next hh
    rw [run_succ_of_next k hu] at hrun
    rw [runCycles_succ_of_next m hu]
    split_ifs with hhu
    · exact ih (Nat.le_of_succ_le_succ hkn) hhu hrun fun ht => Nat.succ.inj (hend ht)
    · obtain ⟨e, he⟩ := Option.ne_none_iff_exists'.1 hhu
      exact (run_halted he hrun).2.symm

/-- The cycles of a batch are `n` steps without an error, or end at a step that raised. -/
theorem runCycles_run (n : Nat) {s : State} (hh : s.halt = none) :
    (Host.Core.run Sys2Proof.core n s = .next (runCycles n s) ∧ (runCycles n s).halt = none) ∨
    ∃ k e, 0 < k ∧ k ≤ n ∧ Host.Core.run Sys2Proof.core k s = .next (runCycles n s) ∧
      (runCycles n s).halt = some e := by
  induction n generalizing s with
  | zero => exact .inl ⟨rfl, hh⟩
  | succ n ih =>
    obtain ⟨u, hu⟩ := step_answers_next hh
    rw [runCycles_succ_of_next n hu]
    split_ifs with hhu
    · obtain ⟨hrun, hend⟩ | ⟨k, e, _, hkn, hrun, hend⟩ := ih hhu
      · exact .inl ⟨(run_succ_of_next n hu).trans hrun, hend⟩
      · exact .inr ⟨k + 1, e, Nat.succ_pos k, Nat.succ_le_succ hkn, (run_succ_of_next k hu).trans hrun, hend⟩
    · obtain ⟨e, he⟩ := Option.ne_none_iff_exists'.1 hhu
      exact .inr ⟨1, e, Nat.one_pos, Nat.succ_pos n, run_succ_of_next 0 hu, he⟩

@[simp] theorem tick_halt (s : State) : (tick s).halt = s.halt := rfl

/-- Every batch, by whether the session has failed and whether a cycle raises. -/
theorem runBatch_cases (n : BitVec 32) (s : State) :
    (s.halt = none ∧ (runCycles n.toNat s).halt = none ∧ runBatch n s = (.ok, tick (runCycles n.toNat s))) ∨
    ∃ e t, t.halt = some e ∧ runBatch n s = (.err e, t) := by
  cases hh : s.halt with
  | some e => exact .inr ⟨e, s, hh, runBatch_failed n hh⟩
  | none =>
    cases hr : (runCycles n.toNat s).halt with
    | none => exact .inl ⟨rfl, rfl, runBatch_ok hh hr⟩
    | some e => exact .inr ⟨e, _, hr, runBatch_err hh hr⟩

/-- Settles O49: every batch by `runBatch_cases`, and its cycles by the run of steps they are. -/
theorem batchResultIsItsHaltRecord : Obligations.BatchResultIsItsHaltRecord := by
  refine ⟨fun n s => ?_, fun n k s t e hkn hh hrun he => ?_, fun n s hh => ?_⟩
  · obtain ⟨_, hr, hb⟩ | ⟨e, t, ht, hb⟩ := runBatch_cases n s
    · simp [hb, hr]
    · simp [hb, ht]
  · have hcycles : runCycles n.toNat s = t :=
      runCycles_of_run hkn hh hrun fun hnone => nomatch hnone.symm.trans he
    rw [runBatch_err hh (hcycles ▸ he), hcycles]
  · obtain ⟨hrun, hend⟩ | ⟨k, e, hk, hkn, hrun, hend⟩ := runCycles_run n.toNat hh
    · exact .inl ⟨_, hrun, hend⟩
    · exact .inr ⟨k, _, e, hk, hkn, hrun, hend⟩

/-! ## The tick -/

theorem tickTimer_pos {b : Byte} (h : 0 < b.toNat) : (tickTimer b).toNat + 1 = b.toNat := by
  have := b.isLt
  rw [tickTimer, if_pos h, BitVec.toNat_ofNat]
  omega

theorem tickTimer_zero {b : Byte} (h : b = 0) : tickTimer b = 0 := by
  rw [h]
  rfl

/-- Settles O48: the tick timer by timer; a batch without an error is the run of its n steps. -/
theorem tickDecrementsEachNonzeroTimer : Obligations.TickDecrementsEachNonzeroTimer := by
  refine ⟨fun s => ⟨tickTimer_pos, tickTimer_zero, tickTimer_pos, tickTimer_zero, rfl⟩, fun n s t hh hrun ht => ?_,
    fun n s hok => ?_⟩
  · have hcycles : runCycles n.toNat s = t := runCycles_of_run (Nat.le_refl _) hh hrun fun _ => rfl
    rw [runBatch_ok hh (hcycles ▸ ht), hcycles]
  · obtain ⟨hh, hr, hb⟩ | ⟨e, t, _, hb⟩ := runBatch_cases n s
    · obtain ⟨hrun, _⟩ | ⟨_, e, _, _, _, he⟩ := runCycles_run n.toNat hh
      · exact ⟨_, hrun, hr, congrArg Prod.snd hb⟩
      · cases hr.symm.trans he
    · rw [hb] at hok
      cases hok

/-- Settles O50: no cycle of a batch ends the wait, so that each leaves the state as it is. -/
theorem waitingBatchOnlyTicks : Obligations.WaitingBatchOnlyTicks := by
  intro n s r hh ha hk
  have hstep : step s = .next s := (step_waiting hh ha).trans (waitCycle_of_no_key hk)
  have hcycles : ∀ m, runCycles m s = s := by
    intro m
    induction m with
    | zero => rfl
    | succ m ih => rw [runCycles_succ_of_next m hstep, if_pos hh, ih]
  rw [runBatch_ok hh ((hcycles _).symm ▸ hh), hcycles]

end Sys2Proof.Machine
end

section
/-! The invariant of every state a run reaches and the font region (10_state.md R26, R27, R35; 20_memory.md R50, R52,
R65), kept by every step and so by every batch and every call of the host. -/

namespace Sys2Proof.Machine

/-! ## Memory under a step -/

section
variable {s t : State}

/-- Memory is as before, or a block stands where every address may be written. -/
theorem step_mem (h : step s = .next t) : t.mem = s.mem ∨
    ∃ bs : List Byte, (∀ a ∈ accessRange s.i.toNat bs.length, Writable a) ∧
      t.mem = s.mem.storeBytes s.i.toNat bs := by
  obtain ⟨_, ⟨r, _, hw⟩ | ⟨_, e, _, rfl⟩ | ⟨_, i, _, hx⟩⟩ := step_next h
  · obtain ⟨_, rfl⟩ | ⟨k, _, rfl⟩ := waitCycle_next hw <;> exact .inl rfl
  · exact .inl rfl
  · exact (exec_mem hx).imp id And.right

theorem storeBytes_wf_of_writable {m : Memory} {base : Nat} {bs : List Byte} (hm : m.wf)
    (hw : ∀ a ∈ accessRange base bs.length, Writable a) : (m.storeBytes base bs).wf := by
  cases bs with
  | nil => exact hm
  | cons b bs =>
    have hlast : Writable (base + bs.length) :=
      hw _ (mem_accessRange.2 ⟨Nat.le_add_right _ _, Nat.lt_succ_self _⟩)
    exact Memory.storeBytes_wf hm (Nat.succ_le_succ hlast.2)

theorem step_mem_wf (hm : s.mem.wf) (h : step s = .next t) : t.mem.wf := by
  obtain heq | ⟨bs, hw, heq⟩ := step_mem h
  · rwa [heq]
  · rw [heq]
    exact storeBytes_wf_of_writable hm hw

/-- The font region is below every address that may be written. -/
theorem step_read_font {a : Nat} (hm : s.mem.wf) (h : step s = .next t) (ha : a ≤ 0x04F) :
    t.mem.read a = s.mem.read a := by
  obtain heq | ⟨bs, hw, heq⟩ := step_mem h
  · rw [heq]
  · rw [heq]
    refine read_storeBytes_of_not_mem hm.sorted fun hmem => ?_
    exact absurd (hw a hmem).1 (Nat.not_le.2 (Nat.lt_succ_of_le ha))

end

/-- Settles O56: a step stores nothing below 0x050. -/
theorem noStepOverwritesTheFont : Obligations.NoStepOverwritesTheFont := by
  intro s t a hm h ha
  exact step_read_font hm h ha

/-! ## The invariant after reset -/

theorem resetWith_inv {c : Config} (hc : c.wf) : (State.resetWith c).Inv where
  cfg := hc
  mem := Memory.wf_nil
  depth := resetWith_stack_length c
  sp := Nat.zero_le _
  entries w hw := by
    rw [resetWith_stack_mem c hw]
    decide
  ip := show (0x0200 : Word).toNat ≤ 0x10FE by decide
  awaiting h := absurd rfl h

/-- Settles O53: the fields of the state after reset(). -/
theorem resetMeetsTheInvariant : Obligations.ResetMeetsTheInvariant := by
  refine ⟨resetWith_inv ?_, fun c hc => resetWith_inv hc⟩
  decide

/-! ## The invariant under a step -/

section
variable {s t : State}

/-- The invariant speaks of the configuration, memory, the stack, IP and AW alone. -/
theorem State.Inv.of_eq (h : s.Inv) (hcfg : t.cfg = s.cfg) (hmem : t.mem = s.mem) (hstack : t.stack = s.stack)
    (hsp : t.sp = s.sp) (hip : t.ip = s.ip) (haw : t.awaiting = s.awaiting) : t.Inv := by
  refine ⟨?_, ?_, ?_, ?_, ?_, ?_, ?_⟩
  · exact hcfg ▸ h.cfg
  · exact hmem ▸ h.mem
  · exact hstack ▸ hcfg ▸ h.depth
  · exact hsp ▸ hcfg ▸ h.sp
  · exact hstack ▸ h.entries
  · exact hip ▸ h.ip
  · exact haw ▸ hip ▸ h.awaiting

/-- From an address that can be fetched from, 2 or 4 further is below the bound of IP. -/
theorem word_add_le {w v : Word} (hw : w.toNat ≤ 0x0FFE) (hv : v.toNat ≤ 0x100) : (w + v).toNat ≤ 0x10FE := by
  rw [BitVec.toNat_add]
  exact (Nat.mod_le _ _).trans (Nat.add_le_add hw hv)

/-- A stack entry is one of the list's, or 0. -/
theorem stackEntry_le {n : Nat} (h : ∀ w ∈ s.stack, w.toNat ≤ n) (k : Nat) : (s.stackEntry k).toNat ≤ n := by
  rw [State.stackEntry, List.getD_eq_getElem?_getD]
  cases hk : s.stack[k]? with
  | none => exact Nat.zero_le n
  | some w => exact h w (List.mem_of_getElem? hk)

/-- The stack's part of the invariant. -/
structure State.StackInv (s : State) : Prop where
  depth   : s.stack.length = s.cfg.stackDepth
  sp      : s.sp ≤ s.cfg.stackDepth
  entries : ∀ w ∈ s.stack, w.toNat ≤ 0x0FFE

theorem exec_stackInv {i : Instr} (hs : s.StackInv) (hip : s.ip.toNat ≤ 0x0FFE) (h : exec i s = .next t) :
    t.StackInv := by
  have hw := exec_frame h
  cases hstack : (writesOf i s).stack with
  | false =>
    obtain ⟨heq, hsp⟩ := hw.stack hstack
    have hcfg := exec_cfg h
    exact ⟨by rw [heq, hcfg]; exact hs.depth, by rw [hsp, hcfg]; exact hs.sp, by rw [heq]; exact hs.entries⟩
  | true =>
    obtain rfl | ⟨nnn, rfl⟩ := writesOf_stack hstack
    · obtain ⟨_, rfl⟩ | ⟨_, rfl⟩ := exec_ret_next h
      · exact ⟨hs.depth, hs.sp, hs.entries⟩
      · exact ⟨hs.depth, (Nat.sub_le _ _).trans hs.sp, hs.entries⟩
    · obtain ⟨_, rfl⟩ | ⟨hroom, rfl⟩ := exec_call_next h
      · exact ⟨hs.depth, hs.sp, hs.entries⟩
      · refine ⟨List.length_set.trans hs.depth, Nat.lt_of_le_of_ne hs.sp hroom, fun w hmem => ?_⟩
        obtain hold | rfl := List.mem_or_eq_of_mem_set hmem
        · exact hs.entries w hold
        · exact hip

theorem exec_ip_le {i : Instr} (hs : s.StackInv) (hip : s.ip.toNat ≤ 0x0FFE) (h : exec i s = .next t) :
    t.ip.toNat ≤ 0x10FE := by
  cases exec_ip h with
  | advance heq => exact heq ▸ word_add_le hip (by decide)
  | skip _ heq => exact heq ▸ word_add_le hip (by decide)
  | jump _ hle => exact hle
  | ret _ heq => exact heq ▸ word_add_le (stackEntry_le hs.entries _) (by decide)
  | wait x _ ht => exact ht ▸ hip.trans (by decide)
  | raised e ht => exact ht ▸ hip.trans (by decide)

/-- The one instruction that sets AW leaves IP at its own address. -/
theorem exec_awaiting_ip_le {i : Instr} (hip : s.ip.toNat ≤ 0x0FFE) (haw : s.awaiting = none)
    (h : exec i s = .next t) (hwait : t.awaiting ≠ none) : t.ip.toNat ≤ 0x0FFE := by
  have hw := exec_frame h
  obtain ⟨x, rfl⟩ := writesOf_awaiting (Bool.eq_true_of_not_eq_false fun hno => hwait ((hw.awaiting hno).trans haw))
  obtain ⟨k, rfl⟩ | rfl := exec_ldVxK_next h
  · exact absurd haw hwait
  · exact hip

theorem exec_inv {i : Instr} (hs : s.Inv) (hip : s.ip.toNat ≤ 0x0FFE) (haw : s.awaiting = none)
    (hm : t.mem.wf) (h : exec i s = .next t) : t.Inv := by
  have hstack : s.StackInv := ⟨hs.depth, hs.sp, hs.entries⟩
  obtain ⟨hdepth, hsp, hentries⟩ := exec_stackInv hstack hip h
  exact ⟨exec_cfg h ▸ hs.cfg, hm, hdepth, hsp, hentries, exec_ip_le hstack hip h, exec_awaiting_ip_le hip haw h⟩

end

/-- Settles O54: a wait cycle moves IP past an FX0A, an error writes HALT, and an instruction was fetched at or below
0x0FFE. -/
theorem stepKeepsTheInvariant : Obligations.StepKeepsTheInvariant := by
  intro s t hs h
  obtain ⟨_, ⟨r, haw, hw⟩ | ⟨_, e, _, rfl⟩ | ⟨haw, i, hf, hx⟩⟩ := step_next h
  · obtain ⟨_, rfl⟩ | ⟨k, _, rfl⟩ := waitCycle_next hw
    · exact hs
    · have hip : s.ip.toNat ≤ 0x0FFE := hs.awaiting (haw ▸ Option.some_ne_none r)
      exact ⟨hs.cfg, hs.mem, hs.depth, hs.sp, hs.entries, word_add_le hip (by decide), absurd rfl⟩
  · exact hs.of_eq rfl rfl rfl rfl rfl rfl
  · exact exec_inv hs (fetchInstr_ok hf).1 haw (step_mem_wf hs.mem h) hx

/-! ## What every step keeps, every batch keeps -/

section
variable {P : State → Prop}

theorem afterCycle_cases (s : State) : afterCycle s = s ∨ step s = .next (afterCycle s) := by
  unfold afterCycle
  cases step s with
  | next t => exact .inr rfl
  | fault f => exact .inl rfl
  | refused r => exact .inl rfl

theorem runCycles_keeps (hstep : ∀ s t, P s → step s = .next t → P t) (n : Nat) {s : State} (hs : P s) :
    P (runCycles n s) := by
  induction n generalizing s with
  | zero => exact hs
  | succ n ih =>
    have hcycle : P (afterCycle s) := by
      obtain hsame | hnext := afterCycle_cases s
      · rwa [hsame]
      · exact hstep s _ hs hnext
    rw [runCycles]
    cases (afterCycle s).halt with
    | some e => exact hcycle
    | none => exact ih hcycle

theorem runBatch_keeps (hstep : ∀ s t, P s → step s = .next t → P t) (htick : ∀ s, P s → P (tick s))
    (n : BitVec 32) {s : State} (hs : P s) : P (runBatch n s).2 := by
  have hcycles : P (runCycles n.toNat s) := runCycles_keeps hstep n.toNat hs
  cases hh : s.halt with
  | some e => rwa [runBatch_failed n hh]
  | none =>
    cases hr : (runCycles n.toNat s).halt with
    | some e => rwa [runBatch_err hh hr]
    | none =>
      rw [runBatch_ok hh hr]
      exact htick _ hcycles

/-- What every call keeps, every run of calls keeps. -/
theorem hostRun_keeps {calls : List HostCall} (hcall : ∀ c ∈ calls, ∀ s, P s → P (hostCall c s)) {s : State}
    (hs : P s) : P (hostRun calls s) := by
  induction calls generalizing s with
  | nil => exact hs
  | cons c cs ih =>
    exact ih (fun d hd => hcall d (List.mem_cons_of_mem c hd)) (hcall c (List.mem_cons_self ..) s hs)

end

/-! ## The calls of the host -/

/-- load_program leaves the session as it is, records its error, or stores its bytes. -/
theorem loadProgram_cases (bytes : List Byte) (s : State) : (loadProgram bytes s).2 = s ∨
    (∃ e, (loadProgram bytes s).2 = s.setHalt (some e)) ∨
    (bytes.length ≤ 3584 ∧ (loadProgram bytes s).2 = s.setMem (s.mem.storeBytes programBase bytes)) := by
  cases hh : s.halt with
  | some e => exact .inl (congrArg Prod.snd (loadProgram_failed bytes hh))
  | none =>
    obtain hlen | hlen := le_or_gt bytes.length 3584
    · exact .inr (.inr ⟨hlen, congrArg Prod.snd (loadProgram_running hh hlen)⟩)
    · exact .inr (.inl ⟨_, congrArg Prod.snd (loadProgram_too_long hh hlen)⟩)

theorem programBytes_wf {m : Memory} {bytes : List Byte} (hm : m.wf) (hlen : bytes.length ≤ 3584) :
    (m.storeBytes programBase bytes).wf :=
  Memory.storeBytes_wf hm (Nat.add_le_add_left hlen programBase)

theorem State.Inv.setMem {s : State} (hs : s.Inv) {m : Memory} (hm : m.wf) : (s.setMem m).Inv :=
  ⟨hs.cfg, hm, hs.depth, hs.sp, hs.entries, hs.ip, hs.awaiting⟩

theorem setInputState_cases (k : RegIdx) (pressed : Bool) (s : State) :
    setInputState k pressed s = s ∨ setInputState k pressed s = s.setKey k pressed := by
  cases hh : s.halt with
  | some e => exact .inl (setInputState_failed k pressed hh)
  | none => exact .inr (setInputState_running k pressed hh)

theorem hostCall_inv (c : HostCall) {s : State} (hs : s.Inv) : (hostCall c s).Inv := by
  cases c with
  | reset => exact (resetWith_inv hs.cfg).of_eq rfl rfl rfl rfl rfl rfl
  | loadFont table =>
    show (Machine.loadFont table s).Inv
    cases hh : s.halt with
    | some e => rwa [loadFont_failed table hh]
    | none =>
      rw [loadFont_running table hh]
      exact hs.setMem (Memory.storeBytes_wf hs.mem (by rw [Vector.length_toList]; decide))
  | loadProgram bytes =>
    show (Machine.loadProgram bytes s).2.Inv
    obtain hsame | ⟨e, herr⟩ | ⟨hlen, hok⟩ := loadProgram_cases bytes s
    · rwa [hsame]
    · rw [herr]
      exact hs.of_eq rfl rfl rfl rfl rfl rfl
    · rw [hok]
      exact hs.setMem (programBytes_wf hs.mem hlen)
  | runBatch n => exact runBatch_keeps stepKeepsTheInvariant (fun s h => h.of_eq rfl rfl rfl rfl rfl rfl) n hs
  | framebufferSnapshot => exact hs
  | setInputState k pressed =>
    show (Machine.setInputState k pressed s).Inv
    obtain hsame | hset := setInputState_cases k pressed s
    · rwa [hsame]
    · rw [hset]
      exact hs.of_eq rfl rfl rfl rfl rfl rfl
  | soundActive => exact hs

/-- Settles O55: each call keeps the invariant, a batch by its steps. -/
theorem everyHostRunKeepsTheInvariant : Obligations.EveryHostRunKeepsTheInvariant := by
  intro calls s hs
  exact hostRun_keeps (fun c _ s h => hostCall_inv c h) hs

/-! ## The font region -/

/-- A canonical memory whose font region holds the table. -/
def HoldsFont (table : Vector Byte 80) (s : State) : Prop := s.mem.wf ∧ FontIs table s

section
variable {table : Vector Byte 80} {s t : State}

theorem HoldsFont.of_mem (h : HoldsFont table s) (hmem : t.mem = s.mem) : HoldsFont table t := by
  unfold HoldsFont FontIs
  rw [hmem]
  exact h

theorem step_holdsFont (hs : HoldsFont table s) (h : step s = .next t) : HoldsFont table t :=
  ⟨step_mem_wf hs.1 h, fun k hk => (step_read_font hs.1 h (Nat.le_of_lt_succ hk)).trans (hs.2 k hk)⟩

theorem loadProgram_holdsFont (bytes : List Byte) (hs : HoldsFont table s) :
    HoldsFont table (loadProgram bytes s).2 := by
  obtain hsame | ⟨e, herr⟩ | ⟨hlen, hok⟩ := loadProgram_cases bytes s
  · rwa [hsame]
  · exact herr ▸ hs.of_mem rfl
  · rw [hok]
    refine ⟨programBytes_wf hs.1 hlen, fun k hk => ?_⟩
    exact (Memory.read_storeBytes_outside hs.1.sorted (.inl (hk.trans (by decide)))).trans (hs.2 k hk)

theorem hostCall_holdsFont {c : HostCall} (hreset : c ≠ .reset) (hfont : ∀ other, c ≠ .loadFont other)
    (hs : HoldsFont table s) : HoldsFont table (hostCall c s) := by
  cases c with
  | reset => exact absurd rfl hreset
  | loadFont other => exact absurd rfl (hfont other)
  | loadProgram bytes => exact loadProgram_holdsFont bytes hs
  | runBatch n => exact runBatch_keeps (fun _ _ => step_holdsFont) (fun _ h => h.of_mem rfl) n hs
  | framebufferSnapshot => exact hs
  | setInputState k pressed =>
    show HoldsFont table (Machine.setInputState k pressed s)
    obtain hsame | hset := setInputState_cases k pressed s
    · rwa [hsame]
    · exact hset ▸ hs.of_mem rfl
  | soundActive => exact hs

/-- The boot places the font, and the ROM does not reach it. -/
theorem boot_holdsFont (c : Config) (rom : List Byte) : HoldsFont c.font (boot c rom).2 := by
  rw [boot_eq]
  exact loadProgram_holdsFont rom ⟨fontMem_wf c.font, fun k hk => fontMem_read_font c.font hk⟩

end

/-- Settles O57: the boot places the table, and each call but the two keeps it, with the canonical form. -/
theorem fontHoldsThroughEverySession : Obligations.FontHoldsThroughEverySession := by
  refine ⟨fun c rom => (boot_holdsFont c rom).2, fun table call s hm hfont hreset hother => ?_,
    fun c rom calls hcalls => ?_⟩
  · exact (hostCall_holdsFont hreset hother ⟨hm, hfont⟩).2
  · refine (hostRun_keeps (P := HoldsFont c.font) (fun call hcall s hs => ?_) (boot_holdsFont c rom)).2
    obtain ⟨hreset, hfont⟩ := hcalls call hcall
    exact hostCall_holdsFont hreset hfont hs

end Sys2Proof.Machine
end
